-- ==== Sys2Proof/Word.lean ====
section
/-! DEFINITION. The word types of the Spectrum PPU: bytes, operand slots, the command and response words, colours. -/

namespace Sys2Proof

/-- One byte: an element of VRAM (rule R21), or one byte of a serialised command or response word (rule R68). -/
abbrev Byte := BitVec 8

/-- One operand slot or result slot: 16 bits, two's complement (rules R61, R62; `SLOT_W` of rule R9). -/
abbrev Slot := BitVec 16

/-- A command word `CW`: `F E D C B A OP` from bit 103 down to bit 0 (rule R61). -/
abbrev CommandWord := BitVec 104

/-- A response word `RW`: `R2 R1 R0 V` from bit 48 down to bit 0 (rule R62). -/
abbrev ResponseWord := BitVec 49

/-- A colour index 0..15 into the palette (rules R122, R124). -/
abbrev ColourIndex := BitVec 4

/-- A VRAM offset, 0..6911 (rules R21, R40). Rule R41: an access outside this range is unrepresentable. -/
abbrev Offset := Fin 6912

/-- One palette entry: three 8-bit components (rule R28). -/
structure Rgb where
  r : Byte
  g : Byte
  b : Byte
  deriving DecidableEq, Repr, Inhabited

/-- One pixel of an emitted frame: four 8-bit components in the order R, G, B, A (rule R126). -/
structure Rgba where
  r : Byte
  g : Byte
  b : Byte
  a : Byte
  deriving DecidableEq, Repr, Inhabited

end Sys2Proof
end

