-- ==== Sys2Proof/Syntax.lean ====
section
/-! DEFINITION. The 18 operations of rule R63, each with the operand slots it names, in slot order `A`, `B`, ... -/

namespace Sys2Proof

/-- An operation of the command set (rule R63), with its operand slots as the command word carries them
(rule R61). How an operation reads a slot is rule R64 (`Machine/Operands.lean`). -/
inductive Instr where
  /-- `0x10` SCRADDR x, y: pixel address translator (rule R81). -/
  | scraddr (x y : Slot)
  /-- `0x11` ATTRADDR col, row: attribute address translator (rule R83). -/
  | attraddr (col row : Slot)
  /-- `0x12` SETPIXEL x, y (rule R87). -/
  | setpixel (x y : Slot)
  /-- `0x13` CLRPIXEL x, y (rule R88). -/
  | clrpixel (x y : Slot)
  /-- `0x14` GETPIXEL x, y (rule R89). -/
  | getpixel (x y : Slot)
  /-- `0x20` SETATTR col, row, value (rule R100). -/
  | setattr (col row value : Slot)
  /-- `0x21` GETATTR col, row (rule R101). -/
  | getattr (col row : Slot)
  /-- `0x22` MAKEATTR ink, paper, bright, flash (rule R102). -/
  | makeattr (ink paper bright flash : Slot)
  /-- `0x23` CLS (rule R104). -/
  | cls
  /-- `0x24` FILLATTR value (rule R105). -/
  | fillattr (value : Slot)
  /-- `0x30` RENDER (rule R120). -/
  | render
  /-- `0x40` DRAWLINE x0, y0, x1, y1 (rule R140). -/
  | drawline (x0 y0 x1 y1 : Slot)
  /-- `0x50` SMUL8 a, b (rule R161). -/
  | smul8 (a b : Slot)
  /-- `0x51` SIN angle (rule R162). -/
  | sin (angle : Slot)
  /-- `0x52` COS angle (rule R164). -/
  | cos (angle : Slot)
  /-- `0x53` ROTPAIR a, b, sinVal, cosVal (rule R166). -/
  | rotpair (a b sinVal cosVal : Slot)
  /-- `0x54` ROTXYZ x, y, z, angleX, angleY, angleZ (rule R167). -/
  | rotxyz (x y z angleX angleY angleZ : Slot)
  /-- `0x55` PROJECT x, y, z, viewerDistance (rule R169). -/
  | project (x y z viewerDistance : Slot)
  deriving DecidableEq, Repr

end Sys2Proof
end

