-- ==== Sys2Proof/Decode.lean ====
section
/-! DEFINITION. The command word (rules R60 to R68): its fields, the opcode map, the decoder, the encoder after it, the
byte serialisation, and the assembler notation of rules R69 and R70. -/

namespace Sys2Proof

/-! ## Fields of the command word (rule R61) -/

/-- `OP`, bits 7:0 (rule R61). Decoding looks at these bits only (rule R63). -/
def opcodeOf (w : CommandWord) : Byte := w.extractLsb' 0 8

/-- Slot `A`, bits 23:8 (rule R61). -/
def slotA (w : CommandWord) : Slot := w.extractLsb' 8 16

/-- Slot `B`, bits 39:24 (rule R61). -/
def slotB (w : CommandWord) : Slot := w.extractLsb' 24 16

/-- Slot `C`, bits 55:40 (rule R61). -/
def slotC (w : CommandWord) : Slot := w.extractLsb' 40 16

/-- Slot `D`, bits 71:56 (rule R61). -/
def slotD (w : CommandWord) : Slot := w.extractLsb' 56 16

/-- Slot `E`, bits 87:72 (rule R61). -/
def slotE (w : CommandWord) : Slot := w.extractLsb' 72 16

/-- Slot `F`, bits 103:88 (rule R61). -/
def slotF (w : CommandWord) : Slot := w.extractLsb' 88 16

/-! ## The decoder -/

/-- Why a byte sequence or a command word selects no operation. -/
inductive DecodeError where
  /-- One of the 238 reserved opcodes (rule R66, U1): "no operation selected". -/
  | reservedOpcode (op : Byte)
  /-- Fewer than the 13 bytes of a command word (rules R67, R68). -/
  | truncated (length : Nat)
  deriving DecidableEq, Repr

/-- The operation a command word selects (rules R61, R63). Slots an operation does not name are ignored (rule R65); every
opcode outside rule R63 is rejected by name (rule R66). -/
def decodeWord (w : CommandWord) : Except DecodeError Instr :=
  match (opcodeOf w).toNat with
  | 0x10 => .ok (.scraddr (slotA w) (slotB w))
  | 0x11 => .ok (.attraddr (slotA w) (slotB w))
  | 0x12 => .ok (.setpixel (slotA w) (slotB w))
  | 0x13 => .ok (.clrpixel (slotA w) (slotB w))
  | 0x14 => .ok (.getpixel (slotA w) (slotB w))
  | 0x20 => .ok (.setattr (slotA w) (slotB w) (slotC w))
  | 0x21 => .ok (.getattr (slotA w) (slotB w))
  | 0x22 => .ok (.makeattr (slotA w) (slotB w) (slotC w) (slotD w))
  | 0x23 => .ok .cls
  | 0x24 => .ok (.fillattr (slotA w))
  | 0x30 => .ok .render
  | 0x40 => .ok (.drawline (slotA w) (slotB w) (slotC w) (slotD w))
  | 0x50 => .ok (.smul8 (slotA w) (slotB w))
  | 0x51 => .ok (.sin (slotA w))
  | 0x52 => .ok (.cos (slotA w))
  | 0x53 => .ok (.rotpair (slotA w) (slotB w) (slotC w) (slotD w))
  | 0x54 => .ok (.rotxyz (slotA w) (slotB w) (slotC w) (slotD w) (slotE w) (slotF w))
  | 0x55 => .ok (.project (slotA w) (slotB w) (slotC w) (slotD w))
  | _ => .error (.reservedOpcode (opcodeOf w))

/-- `count` bytes of a word, least significant first: byte `k` is bits `8k+7 : 8k` (rule R68). -/
def littleEndian {n : Nat} (count : Nat) (w : BitVec n) : List Byte :=
  (List.range count).map fun k => w.extractLsb' (8 * k) 8

/-- The 13 bytes of a command word, byte 0 first (rule R68). -/
def commandBytes (w : CommandWord) : List Byte := littleEndian 13 w

/-- The command word whose bytes, least significant first, are `bs` (rule R68). -/
def commandOfBytes (bs : List Byte) : CommandWord :=
  bs.foldr (fun b w => (w <<< 8) ||| b.setWidth 104) 0

/-- Reads one command from a byte sequence: 13 bytes, one fixed length for every operation (rules R67, R68), and the bytes
after it. -/
def decode (bs : List Byte) : Except DecodeError (Instr × List Byte) :=
  if bs.length < 13 then .error (.truncated bs.length)
  else
    match decodeWord (commandOfBytes (bs.take 13)) with
    | .ok i => .ok (i, bs.drop 13)
    | .error e => .error e

/-- The instruction the decoder reads from the opcode-table word `w` of `nbits` bits: laid out as 13 bytes, least
significant first (rule R68), the bits above `nbits` zero. -/
def decodeTableWord (nbits w : Nat) : Option Instr :=
  match decode (commandBytes (BitVec.ofNat 104 (w % 2 ^ nbits))) with
  | .ok (i, _) => some i
  | .error _ => none

/-! ## The encoder -/

/-- A command word from its opcode and its six slots (rule R61): `F ++ E ++ D ++ C ++ B ++ A ++ OP`. -/
def packCommand (op : Byte) (a b c d e f : Slot) : CommandWord :=
  f ++ e ++ d ++ c ++ b ++ a ++ op

/-- How many operand slots an operation names; they are always the first ones, from `A` on (rule R63). -/
def Instr.arity : Instr → Nat
  | .scraddr _ _ => 2
  | .attraddr _ _ => 2
  | .setpixel _ _ => 2
  | .clrpixel _ _ => 2
  | .getpixel _ _ => 2
  | .setattr _ _ _ => 3
  | .getattr _ _ => 2
  | .makeattr _ _ _ _ => 4
  | .cls => 0
  | .fillattr _ => 1
  | .render => 0
  | .drawline _ _ _ _ => 4
  | .smul8 _ _ => 2
  | .sin _ => 1
  | .cos _ => 1
  | .rotpair _ _ _ _ => 4
  | .rotxyz _ _ _ _ _ _ => 6
  | .project _ _ _ _ => 4

/-- The opcode of an operation (rule R63). -/
def Instr.opcode : Instr → Byte
  | .scraddr _ _ => 0x10
  | .attraddr _ _ => 0x11
  | .setpixel _ _ => 0x12
  | .clrpixel _ _ => 0x13
  | .getpixel _ _ => 0x14
  | .setattr _ _ _ => 0x20
  | .getattr _ _ => 0x21
  | .makeattr _ _ _ _ => 0x22
  | .cls => 0x23
  | .fillattr _ => 0x24
  | .render => 0x30
  | .drawline _ _ _ _ => 0x40
  | .smul8 _ _ => 0x50
  | .sin _ => 0x51
  | .cos _ => 0x52
  | .rotpair _ _ _ _ => 0x53
  | .rotxyz _ _ _ _ _ _ => 0x54
  | .project _ _ _ _ => 0x55

/-- The command word of an operation, with zero in the slots it does not name (rules R61, R63, R65). -/
def encode (i : Instr) : CommandWord :=
  match i with
  | .scraddr x y => packCommand 0x10 x y 0 0 0 0
  | .attraddr col row => packCommand 0x11 col row 0 0 0 0
  | .setpixel x y => packCommand 0x12 x y 0 0 0 0
  | .clrpixel x y => packCommand 0x13 x y 0 0 0 0
  | .getpixel x y => packCommand 0x14 x y 0 0 0 0
  | .setattr col row value => packCommand 0x20 col row value 0 0 0
  | .getattr col row => packCommand 0x21 col row 0 0 0 0
  | .makeattr ink paper bright flash => packCommand 0x22 ink paper bright flash 0 0
  | .cls => packCommand 0x23 0 0 0 0 0 0
  | .fillattr value => packCommand 0x24 value 0 0 0 0 0
  | .render => packCommand 0x30 0 0 0 0 0 0
  | .drawline x0 y0 x1 y1 => packCommand 0x40 x0 y0 x1 y1 0 0
  | .smul8 a b => packCommand 0x50 a b 0 0 0 0
  | .sin angle => packCommand 0x51 angle 0 0 0 0 0
  | .cos angle => packCommand 0x52 angle 0 0 0 0 0
  | .rotpair a b s c => packCommand 0x53 a b s c 0 0
  | .rotxyz x y z ax ay az => packCommand 0x54 x y z ax ay az
  | .project x y z vd => packCommand 0x55 x y z vd 0 0

/-! ## The assembler notation (rules R69, R70)

Rule R69's notation has no effect on the block: it says which command word a line of text stands for. -/

/-- Why a line of rule R69's notation stands for no command. -/
inductive AsmError where
  /-- The word is no mnemonic of rule R63. -/
  | unknownMnemonic
  /-- The line has another number of operands than rule R63 gives the mnemonic (or rule R70's three-operand PROJECT). -/
  | operandCount
  /-- An operand is no decimal or `0x` integer in the range -32768..65535 (rule R69). -/
  | badOperand
  deriving DecidableEq, Repr

/-- The slot contents of an integer operand: -32768..65535, values from 32768 on as their 16-bit pattern (rule R69). -/
def operandSlot (v : Int) : Option Slot :=
  if -32768 ≤ v ∧ v ≤ 65535 then some (BitVec.ofInt 16 v) else none

/-- The viewer distance the three-operand form of PROJECT supplies: 200 (`VD_DEFAULT`, rules R9, R70). -/
def defaultViewerDistance : Slot := 200

/-- The operation a mnemonic and its operand slots stand for (rules R63, R69, R70). -/
def instrOf (mnemonic : String) (slots : List Slot) : Except AsmError Instr :=
  match mnemonic, slots with
  | "SCRADDR", [x, y] => .ok (.scraddr x y)
  | "ATTRADDR", [col, row] => .ok (.attraddr col row)
  | "SETPIXEL", [x, y] => .ok (.setpixel x y)
  | "CLRPIXEL", [x, y] => .ok (.clrpixel x y)
  | "GETPIXEL", [x, y] => .ok (.getpixel x y)
  | "SETATTR", [col, row, value] => .ok (.setattr col row value)
  | "GETATTR", [col, row] => .ok (.getattr col row)
  | "MAKEATTR", [ink, paper, bright, flash] => .ok (.makeattr ink paper bright flash)
  | "CLS", [] => .ok .cls
  | "FILLATTR", [value] => .ok (.fillattr value)
  | "RENDER", [] => .ok .render
  | "DRAWLINE", [x0, y0, x1, y1] => .ok (.drawline x0 y0 x1 y1)
  | "SMUL8", [a, b] => .ok (.smul8 a b)
  | "SIN", [angle] => .ok (.sin angle)
  | "COS", [angle] => .ok (.cos angle)
  | "ROTPAIR", [a, b, s, c] => .ok (.rotpair a b s c)
  | "ROTXYZ", [x, y, z, ax, ay, az] => .ok (.rotxyz x y z ax ay az)
  | "PROJECT", [x, y, z, vd] => .ok (.project x y z vd)
  | "PROJECT", [x, y, z] => .ok (.project x y z defaultViewerDistance)
  | m, _ =>
    if m ∈ ["SCRADDR", "ATTRADDR", "SETPIXEL", "CLRPIXEL", "GETPIXEL", "SETATTR", "GETATTR", "MAKEATTR", "CLS",
        "FILLATTR", "RENDER", "DRAWLINE", "SMUL8", "SIN", "COS", "ROTPAIR", "ROTXYZ", "PROJECT"]
    then .error .operandCount else .error .unknownMnemonic

/-- The value of a digit below `base`. -/
def digitValue (base : Nat) (c : Char) : Option Nat :=
  let v :=
    if '0' ≤ c ∧ c ≤ '9' then c.toNat - '0'.toNat
    else if 'a' ≤ c ∧ c ≤ 'f' then c.toNat - 'a'.toNat + 10
    else if 'A' ≤ c ∧ c ≤ 'F' then c.toNat - 'A'.toNat + 10
    else 16
  if v < base then some v else none

/-- The number a non-empty string of digits stands for, most significant first. -/
def digitsValue (base : Nat) (cs : List Char) : Option Nat :=
  if cs.isEmpty then none
  else cs.foldl (fun acc c => acc.bind fun n => (digitValue base c).map fun d => n * base + d) (some 0)

/-- An operand: a decimal integer with optional minus sign, or `0x` hexadecimal (rule R69). -/
def parseOperand : List Char → Option Int
  | '-' :: cs => (digitsValue 10 cs).map fun n => -(n : Int)
  | '0' :: 'x' :: cs => (digitsValue 16 cs).map fun n => (n : Int)
  | cs => (digitsValue 10 cs).map fun n => (n : Int)

/-- Drops the blanks at both ends. -/
def trimBlanks (cs : List Char) : List Char :=
  ((cs.dropWhile Char.isWhitespace).reverse.dropWhile Char.isWhitespace).reverse

/-- The pieces of a text between commas. -/
def splitAtCommas : List Char → List (List Char)
  | [] => [[]]
  | c :: cs =>
    if c = ',' then [] :: splitAtCommas cs
    else
      match splitAtCommas cs with
      | [] => [[c]]
      | p :: ps => (c :: p) :: ps

/-- One line of the notation: `none` for a line that holds no command (blank, or a comment after `;`), otherwise the
operation `MNEMONIC a, b, c` stands for (rules R69, R70). -/
def assembleLine (line : List Char) : Except AsmError (Option Instr) :=
  let text := trimBlanks (line.takeWhile (· ≠ ';'))
  if text.isEmpty then .ok none
  else
    let mnemonic := String.ofList (text.takeWhile fun c => !c.isWhitespace)
    let rest := trimBlanks (text.dropWhile fun c => !c.isWhitespace)
    let operands := if rest.isEmpty then [] else (splitAtCommas rest).map trimBlanks
    match operands.mapM fun o => (parseOperand o).bind operandSlot with
    | none => .error .badOperand
    | some slots => (instrOf mnemonic slots).map some

end Sys2Proof
end

