-- ==== Sys2Proof/Machine/Operands.lean ====
section
/-! DEFINITION. How an operand is taken from its 16-bit slot (rule R64), the narrowing functions of rule R10, and how a
result is put into its slot (rule R62). -/

namespace Sys2Proof.Machine

/-! ## Operands (rule R64) -/

/-- Full signed 16-bit: `sext_16(slot)`. -/
def sext16 (slot : Slot) : Int := slot.toInt

/-- Low 8 bits, unsigned: `zext_8(slot)`. -/
def zext8 (slot : Slot) : Byte := slot.setWidth 8

/-- Low 8 bits, signed: `sext_8(slot)`. -/
def sext8 (slot : Slot) : Int := (slot.setWidth 8).toInt

/-- Low 3 bits: `zext_3(slot)`. -/
def zext3 (slot : Slot) : BitVec 3 := slot.setWidth 3

/-- Zero or non-zero: `bool(sext_16(slot))`. -/
def boolOf (slot : Slot) : Bool := sext16 slot != 0

/-! ## Functions on integers (rule R10) -/

/-- `asr(v, n) = floor(v / 2^n)`, the right shift AT writes `>>` (rules R10, R163). -/
def asr (v : Int) (n : Nat) : Int := v.fdiv (2 ^ n)

/-- `fdiv(a, b) = floor(a / b)` (rule R10). -/
def fdiv (a b : Int) : Int := a.fdiv b

/-- `sat8(v)`: saturation to the signed 8-bit range (rule R10). -/
def sat8 (v : Int) : Int := max (-128) (min 127 v)

/-- `zext_8(v)` of an integer: its low 8 bits (rule R10). -/
def lowByte (v : Int) : Byte := BitVec.ofInt 8 v

/-- `sext_8(v)` of an integer: its low 8 bits read as a two's-complement number (rule R10). -/
def sext8Int (v : Int) : Int := (lowByte v).toInt

/-! ## Results (rule R62) -/

/-- An unsigned result, zero-extended into its slot. -/
def zeroExtended (v : Nat) : Slot := BitVec.ofNat 16 v

/-- A signed result, sign-extended into its slot. -/
def signExtended (v : Int) : Slot := BitVec.ofInt 16 v

end Sys2Proof.Machine
end

