-- ==== Sys2Proof/Config.lean ====
section
/-! DEFINITION. The parameters of rule R9: the fixed sizes, and the OPEN parameters as constants without a body,
so that no proof can see a value the spec does not give. -/

namespace Sys2Proof.Config

/-- `PIX_SIZE` (rule R9): the pixel region is offsets `[0, 6144)` (rule R22). -/
def pixSize : Nat := 6144

/-- `ATTR_BASE` (rule R9): the first offset of the attribute region (rule R22). -/
def attrBase : Nat := 6144

/-- `ATTR_SIZE` (rule R9): the attribute region is 768 bytes (rule R22). -/
def attrSize : Nat := 768

/-- `VRAM_SIZE` (rule R9): 6912 bytes (rule R21). -/
def vramSize : Nat := 6912

/-- FREE VALUE. `VRAM_RESET` (rules R9, R34, decision D12): the byte that offset `o` holds after reset. The spec leaves
it unspecified, and so does the model (log entry 1). -/
opaque vramReset : Nat → Byte

/-- FREE VALUE. The component values of palette entry `i` (rule R28, decision D14). The spec gives the order of the
names and `PALETTE[8] = PALETTE[0]`, and no component value (log entry 2). -/
opaque paletteEntry : Nat → Rgb

/-- FREE VALUE. What slot `R<k>` of response number `n` carries when the operation does not define it
(rule R62, U7, decision D28; log entry 3). -/
opaque unspecifiedSlot : Nat → Nat → Slot

end Sys2Proof.Config
end

