-- ==== Sys2Proof/Machine/Tables.lean ====
section
/-! DEFINITION. The contents of the two read-only tables: the sine ROM (rules R26, R27) and the palette ROM (rule R28). -/

namespace Sys2Proof.Machine

/-- Rows 0, 16, 32 and 48 of the table of rule R27. -/
def sineRows0 : List Int :=
  [[0, 3, 6, 9, 12, 16, 19, 22, 25, 28, 31, 34, 37, 40, 43, 46],
   [49, 51, 54, 57, 60, 63, 65, 68, 71, 73, 76, 78, 81, 83, 85, 88],
   [90, 92, 94, 96, 98, 100, 102, 104, 106, 107, 109, 111, 112, 113, 115, 116],
   [117, 118, 120, 121, 122, 122, 123, 124, 125, 125, 126, 126, 126, 127, 127, 127]].flatten

/-- Rows 64, 80, 96 and 112 of the table of rule R27. -/
def sineRows1 : List Int :=
  [[127, 127, 127, 127, 126, 126, 126, 125, 125, 124, 123, 122, 122, 121, 120, 118],
   [117, 116, 115, 113, 112, 111, 109, 107, 106, 104, 102, 100, 98, 96, 94, 92],
   [90, 88, 85, 83, 81, 78, 76, 73, 71, 68, 65, 63, 60, 57, 54, 51],
   [49, 46, 43, 40, 37, 34, 31, 28, 25, 22, 19, 16, 12, 9, 6, 3]].flatten

/-- Rows 128, 144, 160 and 176 of the table of rule R27. -/
def sineRows2 : List Int :=
  [[0, -3, -6, -9, -12, -16, -19, -22, -25, -28, -31, -34, -37, -40, -43, -46],
   [-49, -51, -54, -57, -60, -63, -65, -68, -71, -73, -76, -78, -81, -83, -85, -88],
   [-90, -92, -94, -96, -98, -100, -102, -104, -106, -107, -109, -111, -112, -113, -115, -116],
   [-117, -118, -120, -121, -122, -122, -123, -124, -125, -125, -126, -126, -126, -127, -127, -127]].flatten

/-- Rows 192, 208, 224 and 240 of the table of rule R27. -/
def sineRows3 : List Int :=
  [[-127, -127, -127, -127, -126, -126, -126, -125, -125, -124, -123, -122, -122, -121, -120, -118],
   [-117, -116, -115, -113, -112, -111, -109, -107, -106, -104, -102, -100, -98, -96, -94, -92],
   [-90, -88, -85, -83, -81, -78, -76, -73, -71, -68, -65, -63, -60, -57, -54, -51],
   [-49, -46, -43, -40, -37, -34, -31, -28, -25, -22, -19, -16, -12, -9, -6, -3]].flatten

/-- The table of rule R27 in order, `SINE[0]` to `SINE[255]`. -/
def sineValues : List Int := sineRows0 ++ sineRows1 ++ sineRows2 ++ sineRows3

/-- `SINE`: 256 signed 8-bit entries (rule R26), holding the table of rule R27. -/
def sineTable : Vector Byte 256 := ⟨⟨sineValues.map (BitVec.ofInt 8)⟩, by decide +kernel⟩

/-- `PALETTE`: 16 RGB triples whose components the spec leaves open, bright black defined identical to normal black:
`PALETTE[8] = PALETTE[0]` (rule R28; log entry 2). -/
def paletteTable : Vector Rgb 16 :=
  ⟨⟨[Config.paletteEntry 0, Config.paletteEntry 1, Config.paletteEntry 2, Config.paletteEntry 3,
     Config.paletteEntry 4, Config.paletteEntry 5, Config.paletteEntry 6, Config.paletteEntry 7,
     Config.paletteEntry 0, Config.paletteEntry 9, Config.paletteEntry 10, Config.paletteEntry 11,
     Config.paletteEntry 12, Config.paletteEntry 13, Config.paletteEntry 14, Config.paletteEntry 15]⟩, rfl⟩

end Sys2Proof.Machine
end

