-- ==== Sys2Proof/Machine/State.lean ====
section
/-! DEFINITION. The state of the block (rule R20) and the host's side of the command port (rules R60, R222), as plain data;
the state after reset (rules R34, R211); why a step can stop. -/

namespace Sys2Proof.Machine

/-- A byte memory as a list of (address, byte) pairs; its canonical form is `Memory.wf` (`Machine/Ops.lean`). -/
abbrev Memory := List Host.Cell

/-- A response word with exactly the result slots its operation defines (rule R62, U7). -/
inductive Response where
  /-- `respond(V = 1, -, -, -)`. -/
  | done
  /-- `respond(V = 1, R0 = r0, -, -)`. -/
  | value (r0 : Slot)
  /-- `respond(V = 1, R0 = r0, R1 = r1, -)`. -/
  | pair (r0 r1 : Slot)
  /-- `respond(V = 1, R0 = r0, R1 = r1, R2 = r2)`. -/
  | triple (r0 r1 r2 : Slot)
  /-- `respond(V = 0, -, -, -)`: PROJECT's "no projection" (rule R169). -/
  | noProjection
  deriving DecidableEq, Repr

/-- What one RENDER produces: the index plane `IDX` (rule R124) and the frame `F` handed to the display sink (rules R125,
R126), both as 192 rows of 256, top scanline first, leftmost pixel first. `IDX` is kept beside `F` because under the open
palette only the indices are fully determined (rule R28; log entry 6). -/
structure Frame where
  indices : Vector (Vector ColourIndex 256) 192
  pixels : Vector (Vector Rgba 256) 192
  deriving DecidableEq, Repr

/-- The whole state. The first four fields are the block's four objects (rule R20); the last three are the host's side of
the transactions, what rule R222 says a run consists of and what can be observed at its end (log entry 4). -/
structure State where
  /-- `VRAM`, 6912 bytes (rule R21): the bytes written since reset; any other byte holds `VRAM_RESET` (rule R34). -/
  vram : Memory
  /-- `FRAME`, the 6-bit frame counter (rules R24, R25). -/
  frame : BitVec 6
  /-- `SINE`, the sine ROM (rule R26). No operation writes it (rule R53). -/
  sine : Vector Byte 256
  /-- `PALETTE`, the palette ROM (rule R28). No operation writes it (rule R53). -/
  palette : Vector Rgb 16
  /-- The command words the host has still to present, the next one first (rules R60, R222). -/
  commands : List CommandWord
  /-- The responses returned so far, oldest first (rule R222). -/
  responses : List Response
  /-- The frames emitted so far, oldest first (rule R222). -/
  frames : List Frame
  deriving DecidableEq, Repr

/-- There is no fault: no operation raises an exception, fault, trap or error under any operand values (rule R190), and the
treatments `fault` and `stuck` are used nowhere (`93_implementation_defined.md`). So this type has no constructor. -/
inductive Fault
  deriving DecidableEq, Repr

/-- Why a step has no meaning: the spec's `refuse` (rule R11). Each is safe: the model proves nothing about a run that
reaches one. -/
inductive Refusal where
  /-- Raised by an arm of `exec` whose instruction has no meaning yet. Safe. -/
  | notModelled (mnemonic : String)
  /-- Raised by `step` on a command word with a reserved opcode (rule R66, U1). Safe. -/
  | reservedOpcode (op : Byte)
  /-- Raised by SCRADDR when `x` is outside 0..255 or `y` outside 0..191 (rule R81, U3). Safe. -/
  | scraddrOutsideScreen (x y : Slot)
  /-- Raised by ATTRADDR when `col` is outside 0..31 or `row` outside 0..23 (rule R83, U4). Safe. -/
  | attraddrOutsideGrid (col row : Slot)
  /-- Raised by SETATTR when `col` is outside 0..31 or `row` outside 0..23 (rule R100, U2). Safe. -/
  | setattrOutsideGrid (col row : Slot)
  /-- Raised by GETATTR when `col` is outside 0..31 or `row` outside 0..23 (rule R101, U2). Safe. -/
  | getattrOutsideGrid (col row : Slot)
  deriving DecidableEq, Repr

/-- The state after reset (rules R34, R211): nothing written to `VRAM`, so that each of its bytes holds the unspecified
`VRAM_RESET`; `FRAME = 0`; the two ROMs holding their constants; the block idle, no command presented yet. -/
def State.reset : State where
  vram := []
  frame := 0
  sine := sineTable
  palette := paletteTable
  commands := []
  responses := []
  frames := []

end Sys2Proof.Machine
end

