-- ==== Sys2Proof/Machine/Ops.lean ====
section
/-! DEFINITION. The shared operations: VRAM (rule R41), the address translator (rules R80, R82), the pixel functions
(rules R84 to R86), the sine look-up, and how an operation ends (`respond`, `emit`; rule R11).

There is no operation for taking an exception or for returning from one: the block has neither (rules R190, R195,
R196). -/

namespace Sys2Proof.Machine

/-! ## VRAM -/

/-- The canonical form of a memory: addresses strictly rising, each of them an offset of VRAM. An unlisted address has no
listed value (`Memory.lookup` is `none`), so that no entry can equal what an unlisted address looks up as. -/
abbrev Memory.wf (m : Memory) : Prop :=
  m.Pairwise (fun a b => a.1 < b.1) ∧ ∀ c ∈ m, c.1 < Config.vramSize

/-- The byte written to address `o` since reset, if any. -/
def Memory.lookup : Memory → Nat → Option Byte
  | [], _ => none
  | (a, b) :: m, o => if a = o then some b else Memory.lookup m o

/-- `MemRead(o, 1)` (rule R41): the most recent byte written to `o` in command order, or its reset byte when there is
none (rule R54). What an unwritten byte holds is the free `VRAM_RESET` (rule R34; log entry 1). -/
def Memory.read (m : Memory) (o : Offset) : Byte :=
  (m.lookup o.val).getD (Config.vramReset o.val)

/-- Lists byte `v` at address `o`, keeping the addresses rising. -/
def Memory.insert : Memory → Nat → Byte → Memory
  | [], o, v => [(o, v)]
  | (a, b) :: m, o, v =>
    if o < a then (o, v) :: (a, b) :: m
    else if o = a then (o, v) :: m
    else (a, b) :: Memory.insert m o v

/-- `MemWrite(o, 1, v)` (rule R41). -/
def Memory.write (m : Memory) (o : Offset) (v : Byte) : Memory := m.insert o.val v

/-- `for o in lo .. lo + n - 1: VRAM[o] <- v`, the loop of rules R104 and R105. -/
def Memory.fill (m : Memory) (lo n : Nat) (v : Byte) : Memory :=
  m.filter (fun c => decide (c.1 < lo)) ++ (List.range' lo n).map (fun o => (o, v)) ++
    m.filter (fun c => decide (lo + n ≤ c.1))

/-! ## The address translator -/

/-- The formula of rule R80. -/
def scrAddrFormula (x y : Nat) : Nat :=
  let highByte := 0x40 ||| ((y &&& 0xC0) >>> 3) ||| (y &&& 0x07)
  let lowByte := ((y &&& 0x38) <<< 2) ||| (x >>> 3)
  ((highByte - 0x40) <<< 8) ||| lowByte

/-- The parts of the formula that `y` gives, as numbers. -/
theorem scrAddrFormula_y_parts : ∀ y : Fin 256,
    (0x40 ||| ((y.val &&& 0xC0) >>> 3) ||| (y.val &&& 0x07)) - 0x40 = 8 * (y.val / 64) + y.val % 8 ∧
    (y.val &&& 0x38) <<< 2 = (y.val / 8 % 8) <<< 5 := by decide +kernel

/-- The formula of rule R80 as a sum: the bit fields of rule R42. -/
theorem scrAddrFormula_eq {x y : Nat} (hx : x < 256) (hy : y < 256) :
    scrAddrFormula x y = 2048 * (y / 64) + 256 * (y % 8) + 32 * (y / 8 % 8) + x / 8 := by
  obtain ⟨h1, h2⟩ := scrAddrFormula_y_parts ⟨y, hy⟩
  dsimp only at h1 h2
  have hx' : x >>> 3 = x / 8 := Nat.shiftRight_eq_div_pow x 3
  have hlow : ((y / 8 % 8) <<< 5 ||| x / 8) = 32 * (y / 8 % 8) + x / 8 := by
    rw [← Nat.shiftLeft_add_eq_or_of_lt (by omega : x / 8 < 2 ^ 5), Nat.shiftLeft_eq]; omega
  unfold scrAddrFormula
  dsimp only
  rw [h1, h2, hx', hlow,
    ← Nat.shiftLeft_add_eq_or_of_lt (by omega : 32 * (y / 8 % 8) + x / 8 < 2 ^ 8), Nat.shiftLeft_eq]
  omega

/-- `SCRADDR(x, y)` for `0 <= x <= 255` and `0 <= y <= 191` (rule R80); outside that domain it is not defined. -/
def scrAddr (x : Fin 256) (y : Fin 192) : Offset :=
  ⟨scrAddrFormula x.val y.val, by rw [scrAddrFormula_eq x.isLt (by omega)]; omega⟩

/-- `ATTRADDR(col, row) = 6144 + row*32 + col` for `0 <= col <= 31` and `0 <= row <= 23` (rules R46, R82). -/
def attrAddr (col : Fin 32) (row : Fin 24) : Offset :=
  ⟨Config.attrBase + row.val * 32 + col.val, by unfold Config.attrBase; omega⟩

/-- The inverse of the pixel translation (rule R44): the byte column and the scanline of a pixel-region offset:
`col = o[4:0]`, `y = (o[12:11] << 6) | (o[7:5] << 3) | o[10:8]`. -/
def pixelByteOf (o : Nat) : Nat × Nat :=
  (o % 32, ((o / 2048 % 4) <<< 6) ||| ((o / 32 % 8) <<< 3) ||| (o / 256 % 8))

/-! ## Range checks -/

/-- `INRANGE(x, y)` (rule R85): the screen point of full signed operands, if they are one. -/
def screenPoint? (x y : Int) : Option (Fin 256 × Fin 192) :=
  if h : (0 ≤ x ∧ x ≤ 255) ∧ (0 ≤ y ∧ y ≤ 191) then
    some (⟨x.toNat, by omega⟩, ⟨y.toNat, by omega⟩)
  else none

/-- `0 <= col <= 31 and 0 <= row <= 23` (rules R83, R100, R101): the cell of full signed operands, if they are one. -/
def gridCell? (col row : Int) : Option (Fin 32 × Fin 24) :=
  if h : (0 ≤ col ∧ col ≤ 31) ∧ (0 ≤ row ∧ row ≤ 23) then
    some (⟨col.toNat, by omega⟩, ⟨row.toNat, by omega⟩)
  else none

/-! ## Pixels -/

/-- `MASK(x) = 0x80 >> (x & 7)` (rule R84). -/
def mask (x : Fin 256) : Byte := 0x80#8 >>> (x.val &&& 7)

/-- `PLOT(x, y)` (rule R86): sets one pixel bit; a point off the screen changes nothing. Its laws of rule R90 stand in
`Laws/Pixels.lean`. -/
def plot (m : Memory) (x y : Int) : Memory :=
  match screenPoint? x y with
  | some (px, py) => m.write (scrAddr px py) (m.read (scrAddr px py) ||| mask px)
  | none => m

/-- The pixel-clear of rule R88; a point off the screen changes nothing. Its laws of rule R90 stand in `Laws/Pixels.lean`. -/
def unplot (m : Memory) (x y : Int) : Memory :=
  match screenPoint? x y with
  | some (px, py) => m.write (scrAddr px py) (m.read (scrAddr px py) &&& (~~~ mask px &&& 0xFF#8))
  | none => m

/-- The pixel query of rule R89: exactly 0 or 1, and 0 for a point off the screen. Its laws of rule R90 stand in
`Laws/Pixels.lean`. -/
def pixelAt (m : Memory) (x y : Int) : Nat :=
  match screenPoint? x y with
  | some (px, py) => if m.read (scrAddr px py) &&& mask px ≠ 0#8 then 1 else 0
  | none => 0

/-! ## The sine ROM -/

/-- `SINE[i]` as a signed number (rules R26, R162). -/
def State.sinOf (s : State) (angle : Byte) : Int :=
  (s.sine[angle.toNat]'angle.isLt).toInt

/-- `SINE[(angle + 64) mod 256]` as a signed number (rule R164). -/
def State.cosOf (s : State) (angle : Byte) : Int := s.sinOf (angle + 64)

/-! ## Updates of the state -/

/-- The state with another VRAM; everything else is as before. -/
def State.withVram (s : State) (m : Memory) : State := { s with vram := m }

/-- The state with other commands still to present; everything else is as before. -/
def State.withCommands (s : State) (ws : List CommandWord) : State := { s with commands := ws }

/-- The state after one more response has been returned; everything else is as before. -/
def State.answer (s : State) (r : Response) : State := { s with responses := s.responses ++ [r] }

/-- `emit F` (rules R11, R126): hands a finished frame to the display sink; everything else is as before. -/
def State.emit (s : State) (f : Frame) : State := { s with frames := s.frames ++ [f] }

/-- `FRAME <- (FRAME + 1) mod 64` (rule R127); everything else is as before. -/
def State.advanceFrame (s : State) : State := { s with frame := s.frame + 1 }

/-! ## How an operation ends -/

/-- `respond(...)` (rule R11): returns the response word and ends the operation. -/
def respond (s : State) (r : Response) : Host.Outcome State Fault Refusal := .next (s.answer r)

/-- `refuse` (rule R11): the spec gives the situation no meaning. -/
def refuse (r : Refusal) : Host.Outcome State Fault Refusal := .refused r

end Sys2Proof.Machine
end

