-- ==== Sys2Proof/Machine/Attributes.lean ====
section
/-! DEFINITION. `42_attributes_fill.md`: SETATTR, GETATTR, MAKEATTR, CLS, FILLATTR, and the attribute byte (rules R47, R102,
R103). -/

namespace Sys2Proof.Machine

/-- The fields of an attribute byte (rule R47). -/
structure AttrFields where
  ink : BitVec 3
  paper : BitVec 3
  bright : Bool
  flash : Bool
  deriving DecidableEq, Repr

/-- The pack of rule R102: `(flash << 7) | (bright << 6) | (paper << 3) | ink`. -/
def packAttr (f : AttrFields) : Byte :=
  ((if f.flash then 1#8 else 0#8) <<< 7) ||| ((if f.bright then 1#8 else 0#8) <<< 6) |||
    (f.paper.setWidth 8 <<< 3) ||| f.ink.setWidth 8

/-- The decode of rule R103, which RENDER performs. -/
def decodeAttr (attr : Byte) : AttrFields where
  ink := (attr &&& 7#8).setWidth 3
  paper := ((attr >>> 3) &&& 7#8).setWidth 3
  bright := (attr >>> 6) &&& 1#8 != 0#8
  flash := (attr >>> 7) &&& 1#8 != 0#8

/-- SETATTR (rule R100). Outside the grid the spec refuses (U2). -/
def execSetattr (col row value : Slot) (s : State) : Host.Outcome State Fault Refusal :=
  match gridCell? (sext16 col) (sext16 row) with
  | some (c, r) => respond (s.withVram (s.vram.write (attrAddr c r) (zext8 value))) .done
  | none => refuse (.setattrOutsideGrid col row)

/-- GETATTR (rule R101). Outside the grid the spec refuses (U2). -/
def execGetattr (col row : Slot) (s : State) : Host.Outcome State Fault Refusal :=
  match gridCell? (sext16 col) (sext16 row) with
  | some (c, r) => respond s (.value (zeroExtended (s.vram.read (attrAddr c r)).toNat))
  | none => refuse (.getattrOutsideGrid col row)

/-- MAKEATTR (rule R102). -/
def execMakeattr (ink paper bright flash : Slot) (s : State) : Host.Outcome State Fault Refusal :=
  respond s (.value (zeroExtended
    (packAttr ⟨zext3 ink, zext3 paper, boolOf bright, boolOf flash⟩).toNat))

/-- CLS (rule R104): zero-fills all 6912 bytes. -/
def execCls (s : State) : Host.Outcome State Fault Refusal :=
  respond (s.withVram (s.vram.fill 0 Config.vramSize 0)) .done

/-- FILLATTR (rule R105): sets every byte of the attribute region. -/
def execFillattr (value : Slot) (s : State) : Host.Outcome State Fault Refusal :=
  respond (s.withVram (s.vram.fill Config.attrBase Config.attrSize (zext8 value))) .done

end Sys2Proof.Machine
end

