-- ==== Sys2Proof/Machine/FixedPoint.lean ====
section
/-! DEFINITION. `45_fixedpoint.md`: SMUL8, SIN, COS, ROTPAIR, ROTXYZ, PROJECT. All arithmetic is exact on integers; every
narrowing is written out (rule R10). -/

namespace Sys2Proof.Machine

/-- `ROT(a, b, s, c)` (rule R165): exact products, doubled, shifted right by 8, then saturated. -/
def rot (a b s c : Int) : Int × Int :=
  (sat8 (asr ((a * c - b * s) * 2) 8), sat8 (asr ((a * s + b * c) * 2) 8))

/-- SMUL8 (rule R161): the exact product of the low bytes. -/
def execSmul8 (a b : Slot) (s : State) : Host.Outcome State Fault Refusal :=
  respond s (.value (signExtended (sext8 a * sext8 b)))

/-- SIN (rule R162). -/
def execSin (angle : Slot) (s : State) : Host.Outcome State Fault Refusal :=
  respond s (.value (signExtended (s.sinOf (zext8 angle))))

/-- COS (rule R164). -/
def execCos (angle : Slot) (s : State) : Host.Outcome State Fault Refusal :=
  respond s (.value (signExtended (s.cosOf (zext8 angle))))

/-- ROTPAIR (rule R166). -/
def execRotpair (a b sinVal cosVal : Slot) (s : State) : Host.Outcome State Fault Refusal :=
  let r := rot (sext8 a) (sext8 b) (sext8 sinVal) (sext8 cosVal)
  respond s (.pair (signExtended r.1) (signExtended r.2))

/-- The three rotations of rule R167, in the order Z, Y, X, each step feeding its results forward. -/
def rotXYZ (s : State) (x y z : Int) (ax ay az : Byte) : Int × Int × Int :=
  let zRot := rot x y (s.sinOf az) (s.cosOf az)
  let yRot := rot zRot.1 z (s.sinOf ay) (s.cosOf ay)
  let xRot := rot zRot.2 yRot.2 (s.sinOf ax) (s.cosOf ax)
  (yRot.1, xRot.1, xRot.2)

/-- ROTXYZ (rule R167). -/
def execRotxyz (x y z angleX angleY angleZ : Slot) (s : State) : Host.Outcome State Fault Refusal :=
  let r := rotXYZ s (sext8 x) (sext8 y) (sext8 z) (zext8 angleX) (zext8 angleY) (zext8 angleZ)
  respond s (.triple (signExtended r.1) (signExtended r.2.1) (signExtended r.2.2))

/-- `scale = min(255, fdiv(vd * 128, den))` (rules R169, R171), for `den > 0`. -/
def projectScale (vd den : Int) : Int := min 255 (fdiv (vd * 128) den)

/-- One screen coordinate of PROJECT (rules R169, R170): `zext_8(centre + asr(v * m * 2, 8))` with `m = sext_8(scale)`. -/
def projectCoordinate (centre v scale : Int) : Byte :=
  lowByte (centre + asr (v * sext8Int scale * 2) 8)

/-- PROJECT (rule R169), with the centre (128, 96) of rule R9. -/
def execProject (x y z viewerDistance : Slot) (s : State) : Host.Outcome State Fault Refusal :=
  let den := sext16 z + sext16 viewerDistance
  if den ≤ 0 then respond s .noProjection
  else
    let scale := projectScale (sext16 viewerDistance) den
    respond s (.pair (zeroExtended (projectCoordinate 128 (sext8 x) scale).toNat)
      (zeroExtended (projectCoordinate 96 (sext8 y) scale).toNat))

end Sys2Proof.Machine
end

