-- ==== Sys2Proof/Machine/Line.lean ====
section
/-! DEFINITION. `44_line.md`: DRAWLINE, one exactly specified Bresenham variant. -/

namespace Sys2Proof.Machine

/-- The loop of the horizontal-major branch (rule R143), `n` iterations still to run: plot, then accumulate, then
conditionally step `y`. -/
def horizontalPoints (dx dy sy : Int) : Nat → (x y err : Int) → List (Int × Int)
  | 0, _, _, _ => []
  | n + 1, x, y, err =>
    (x, y) ::
      if err + dy ≥ dx then horizontalPoints dx dy sy n (x + 1) (y + sy) (err + dy - dx)
      else horizontalPoints dx dy sy n (x + 1) y (err + dy)

/-- The loop of the vertical-major branch (rule R144), `n` iterations still to run: plot, step `y`, then accumulate, then
conditionally step `x`. -/
def verticalPoints (dx dy sy : Int) : Nat → (x y err : Int) → List (Int × Int)
  | 0, _, _, _ => []
  | n + 1, x, y, err =>
    (x, y) ::
      if err + dx ≥ dy then verticalPoints dx dy sy n (x + 1) (y + sy) (err + dx - dy)
      else verticalPoints dx dy sy n x (y + sy) (err + dx)

/-- The deltas and the branch of rules R142 and R145, for endpoints in the order of rule R141. -/
def orderedLinePoints (x0 y0 x1 y1 : Int) : List (Int × Int) :=
  let dx := x1 - x0
  let dy : Int := (y1 - y0).natAbs
  let sy : Int := if y1 ≥ y0 then 1 else -1
  if dx ≥ dy then horizontalPoints dx dy sy (dx.toNat + 1) x0 y0 0
  else verticalPoints dx dy sy (dy.toNat + 1) x0 y0 0

/-- The point sequence of rule R145, with the normalisation of rule R141. -/
def linePoints (x0 y0 x1 y1 : Int) : List (Int × Int) :=
  if x0 > x1 then orderedLinePoints x1 y1 x0 y0 else orderedLinePoints x0 y0 x1 y1

/-- Passes each point to `PLOT`, in sequence order (rules R140, R147). -/
def plotAll (m : Memory) (points : List (Int × Int)) : Memory :=
  points.foldl (fun m p => plot m p.1 p.2) m

/-- DRAWLINE (rules R140, R145). -/
def execDrawline (x0 y0 x1 y1 : Slot) (s : State) : Host.Outcome State Fault Refusal :=
  respond
    (s.withVram (plotAll s.vram (linePoints (sext16 x0) (sext16 y0) (sext16 x1) (sext16 y1)))) .done

end Sys2Proof.Machine
end

