-- ==== Sys2Proof/Machine/Pixel.lean ====
section
/-! DEFINITION. `41_translate_pixel.md`: SCRADDR, ATTRADDR, SETPIXEL, CLRPIXEL, GETPIXEL. -/

namespace Sys2Proof.Machine

/-- SCRADDR (rule R81). Outside the domain of the translation the spec refuses (U3). -/
def execScraddr (x y : Slot) (s : State) : Host.Outcome State Fault Refusal :=
  match screenPoint? (sext16 x) (sext16 y) with
  | some (px, py) => respond s (.value (zeroExtended (scrAddr px py).val))
  | none => refuse (.scraddrOutsideScreen x y)

/-- ATTRADDR (rule R83). Outside the grid the spec refuses (U4). -/
def execAttraddr (col row : Slot) (s : State) : Host.Outcome State Fault Refusal :=
  match gridCell? (sext16 col) (sext16 row) with
  | some (c, r) => respond s (.value (zeroExtended (attrAddr c r).val))
  | none => refuse (.attraddrOutsideGrid col row)

/-- SETPIXEL (rule R87). -/
def execSetpixel (x y : Slot) (s : State) : Host.Outcome State Fault Refusal :=
  respond (s.withVram (plot s.vram (sext16 x) (sext16 y))) .done

/-- CLRPIXEL (rule R88). -/
def execClrpixel (x y : Slot) (s : State) : Host.Outcome State Fault Refusal :=
  respond (s.withVram (unplot s.vram (sext16 x) (sext16 y))) .done

/-- GETPIXEL (rule R89). -/
def execGetpixel (x y : Slot) (s : State) : Host.Outcome State Fault Refusal :=
  respond s (.value (zeroExtended (pixelAt s.vram (sext16 x) (sext16 y))))

end Sys2Proof.Machine
end

