-- ==== Sys2Proof/Machine/Render.lean ====
section
/-! DEFINITION. `43_render_flash.md`: RENDER, the flash counter, the frame's layout, and the sink's up-scaling contract. -/

namespace Sys2Proof.Machine

/-- `phase = FRAME[5]` (rules R25, R121). -/
def flashPhase (frame : BitVec 6) : Bool := frame.getLsbD 5

/-- A 3-bit colour with the bright adjustment, `c + (bright ? 8 : 0)` (rule R122). -/
def brightened (bright : Bool) (c : BitVec 3) : ColourIndex :=
  BitVec.ofNat 4 (c.toNat + if bright then 8 else 0)

/-- The cell decode and flash swap of rules R122 and R123: the (ink, paper) colour indices of a cell. -/
def cellColours (attr : Byte) (phase : Bool) : ColourIndex × ColourIndex :=
  let f := decodeAttr attr
  let ink := brightened f.bright f.ink
  let paper := brightened f.bright f.paper
  if phase && f.flash then (paper, ink) else (ink, paper)

/-- One scanline of `IDX` (rules R124, R128): each of the 32 columns reads its pixel byte and its attribute byte once, and
its eight pixels are the bits of the pixel byte, bit 7 leftmost. -/
def scanline (m : Memory) (phase : Bool) (y : Fin 192) : Vector ColourIndex 256 :=
  let cells : Vector (Byte × ColourIndex × ColourIndex) 32 := Vector.ofFn fun col =>
    (m.read (scrAddr ⟨8 * col.val, by omega⟩ y),
      cellColours (m.read (attrAddr col ⟨y.val >>> 3, by rw [Nat.shiftRight_eq_div_pow]; omega⟩)) phase)
  Vector.ofFn fun x =>
    let cell := cells[x.val / 8]'(by omega)
    if (cell.1 >>> (7 - x.val % 8)) &&& 1#8 = 1#8 then cell.2.1 else cell.2.2

/-- The index plane `IDX`, 192 rows of 256 colour indices (rule R124). -/
def indexPlane (m : Memory) (phase : Bool) : Vector (Vector ColourIndex 256) 192 :=
  Vector.ofFn (scanline m phase)

/-- The palette look-up of rule R125: RGB and full opacity. -/
def colourOf (palette : Vector Rgb 16) (i : ColourIndex) : Rgba :=
  let c := palette[i.toNat]'i.isLt
  ⟨c.r, c.g, c.b, 255⟩

/-- The frame of rules R124 to R126. -/
def renderFrame (m : Memory) (palette : Vector Rgb 16) (phase : Bool) : Frame :=
  let idx := indexPlane m phase
  { indices := idx
    pixels := Vector.ofFn fun y => Vector.ofFn fun x => colourOf palette idx[y][x] }

/-- The four bytes of a frame pixel, in the order R, G, B, A (rule R126). -/
def Rgba.bytes (p : Rgba) : List Byte := [p.r, p.g, p.b, p.a]

/-- The linear layout of a frame (rule R126): row-major, top scanline first, leftmost pixel first. -/
def Frame.bytes (f : Frame) : List Byte :=
  f.pixels.toList.flatMap fun row => row.toList.flatMap Rgba.bytes

/-- The up-scaling contract at the sink (rule R131): each source pixel replicated into an `n` by `n` block. -/
def Frame.upscaled (f : Frame) (n : Nat) : List (List Rgba) :=
  f.pixels.toList.flatMap fun row =>
    List.replicate n (row.toList.flatMap fun p => List.replicate n p)

/-- RENDER (rules R120, R128): the frame is produced with the phase sampled before the increment, and the counter advances
after the frame is complete (rule R127), the frame boundary that rule R130 reads as "blanking". -/
def execRender (s : State) : Host.Outcome State Fault Refusal :=
  respond (s.emit (renderFrame s.vram s.palette (flashPhase s.frame))).advanceFrame .done

end Sys2Proof.Machine
end

