-- ==== Sys2Proof/Machine/Dispatch.lean ====
section
/-! DEFINITION. The execution of one operation: one arm per constructor of `Instr` (rule R63). -/

namespace Sys2Proof.Machine

def exec (i : Instr) (s : State) : Host.Outcome State Fault Refusal :=
  match i with
  | .scraddr x y => Sys2Proof.Machine.execScraddr x y s
  | .attraddr col row => Sys2Proof.Machine.execAttraddr col row s
  | .setpixel x y => Sys2Proof.Machine.execSetpixel x y s
  | .clrpixel x y => Sys2Proof.Machine.execClrpixel x y s
  | .getpixel x y => Sys2Proof.Machine.execGetpixel x y s
  | .setattr col row value => Sys2Proof.Machine.execSetattr col row value s
  | .getattr col row => Sys2Proof.Machine.execGetattr col row s
  | .makeattr ink paper bright flash => Sys2Proof.Machine.execMakeattr ink paper bright flash s
  | .cls => Sys2Proof.Machine.execCls s
  | .fillattr value => Sys2Proof.Machine.execFillattr value s
  | .render => Sys2Proof.Machine.execRender s
  | .drawline x0 y0 x1 y1 => Sys2Proof.Machine.execDrawline x0 y0 x1 y1 s
  | .smul8 a b => Sys2Proof.Machine.execSmul8 a b s
  | .sin angle => Sys2Proof.Machine.execSin angle s
  | .cos angle => Sys2Proof.Machine.execCos angle s
  | .rotpair a b sinVal cosVal => Sys2Proof.Machine.execRotpair a b sinVal cosVal s
  | .rotxyz x y z angleX angleY angleZ => Sys2Proof.Machine.execRotxyz x y z angleX angleY angleZ s
  | .project x y z viewerDistance => Sys2Proof.Machine.execProject x y z viewerDistance s

end Sys2Proof.Machine
end

