-- ==== Sys2Proof/Machine/Step.lean ====
section
/-! DEFINITION. One transaction of the command port (rule R60), and how a command word reaches it. -/

namespace Sys2Proof.Machine

/-- One transaction: the host presents its next command word, the block executes the operation it selects, completely, and
returns the response (rule R60). A reserved opcode is refused (rule R66). With no command presented the block is idle and
loses nothing (rules R8, R199; log entry 5). -/
def step (s : State) : Host.Outcome State Fault Refusal :=
  match s.commands with
  | [] => .next s
  | w :: rest =>
    match decodeWord w with
    | .ok i => exec i (s.withCommands rest)
    | .error _ => refuse (.reservedOpcode (opcodeOf w))

/-- The state in which the next command word the host presents is the opcode-table word `w` of `nbits` bits, the bits above
`nbits` zero (log entry 4). -/
def State.withFetchWord (s : State) (nbits w : Nat) : State :=
  s.withCommands (BitVec.ofNat 104 (w % 2 ^ nbits) :: s.commands)

end Sys2Proof.Machine
end

