-- ==== Sys2Proof/Machine/Flags.lean ====
section
/-! DEFINITION. The one flag, the `V` bit of the response word (rule R32), and the response word itself (rules R62, R68). -/

namespace Sys2Proof.Machine

/-- `V`: 1 when the defined result slots are valid, 0 only for "no projection" (rules R32, R62). -/
def Response.valid : Response → Bool
  | .done => true
  | .value _ => true
  | .pair _ _ => true
  | .triple _ _ _ => true
  | .noProjection => false

/-- `R0`, where the response defines it (rule R62). -/
def Response.r0 : Response → Option Slot
  | .done => none
  | .value r0 => some r0
  | .pair r0 _ => some r0
  | .triple r0 _ _ => some r0
  | .noProjection => none

/-- `R1`, where the response defines it (rule R62). -/
def Response.r1 : Response → Option Slot
  | .done => none
  | .value _ => none
  | .pair _ r1 => some r1
  | .triple _ r1 _ => some r1
  | .noProjection => none

/-- `R2`, where the response defines it (rule R62). -/
def Response.r2 : Response → Option Slot
  | .done => none
  | .value _ => none
  | .pair _ _ => none
  | .triple _ _ r2 => some r2
  | .noProjection => none

/-- The response word `R2 ++ R1 ++ R0 ++ V` of response number `n` (rule R62). A slot the response does not define carries a
free value (U7; log entry 3). -/
def Response.word (n : Nat) (r : Response) : ResponseWord :=
  (r.r2.getD (Config.unspecifiedSlot n 2)) ++ (r.r1.getD (Config.unspecifiedSlot n 1)) ++
    (r.r0.getD (Config.unspecifiedSlot n 0)) ++ (BitVec.ofBool r.valid)

/-- The 7 bytes of a response word, zero-extended to 56 bits, least significant byte first (rule R68). -/
def responseBytes (w : ResponseWord) : List Byte := littleEndian 7 (w.setWidth 56)

/-- The response words the host has received, oldest first. -/
def State.responseWords (s : State) : List ResponseWord := s.responses.mapIdx Response.word

end Sys2Proof.Machine
end

