-- ==== Sys2Proof/WellFormed.lean ====
section
/-! DEFINITION. When a command keeps the host's duties of rule R223. Every `Instr` has an encoding (each operand is one
whole 16-bit slot), so what is left to check is the contract: SCRADDR, ATTRADDR, SETATTR and GETATTR are defined only
inside their domains (rules R81, R83, R100, R101, R216); every other operation accepts every operand value. -/

namespace Sys2Proof

/-- `0 <= x <= 255 and 0 <= y <= 191` on the full signed operands (rules R81, R85). -/
def onScreen (x y : Slot) : Bool :=
  decide (0 ≤ x.toInt ∧ x.toInt ≤ 255 ∧ 0 ≤ y.toInt ∧ y.toInt ≤ 191)

/-- `0 <= col <= 31 and 0 <= row <= 23` on the full signed operands (rules R83, R100, R101). -/
def inGrid (col row : Slot) : Bool :=
  decide (0 ≤ col.toInt ∧ col.toInt ≤ 31 ∧ 0 ≤ row.toInt ∧ row.toInt ≤ 23)

/-- The command is inside the contract of its rule. -/
def Instr.wellFormed : Instr → Bool
  | .scraddr x y => onScreen x y
  | .attraddr col row => inGrid col row
  | .setpixel _ _ => true
  | .clrpixel _ _ => true
  | .getpixel _ _ => true
  | .setattr col row _ => inGrid col row
  | .getattr col row => inGrid col row
  | .makeattr _ _ _ _ => true
  | .cls => true
  | .fillattr _ => true
  | .render => true
  | .drawline _ _ _ _ => true
  | .smul8 _ _ => true
  | .sin _ => true
  | .cos _ => true
  | .rotpair _ _ _ _ => true
  | .rotxyz _ _ _ _ _ _ => true
  | .project _ _ _ _ => true

end Sys2Proof
end

