-- ==== Sys2Proof/Safety.lean ====
section
/-! DEFINITION. The terms claims are made in: the invariant of the machine, the host's duties, and a safe run. -/

namespace Sys2Proof.Machine

/-- The invariant of every state a run reaches: VRAM in canonical form; the sine ROM holding the table of rule R27;
`PALETTE[8] = PALETTE[0]` (rule R28). -/
def State.Inv (s : State) : Prop :=
  s.vram.wf ∧ s.sine = sineTable ∧ s.palette[8] = s.palette[0]

/-- The command word keeps the host's duties of rule R223: an opcode of rule R63, operands inside the contract. -/
def commandInContract (w : CommandWord) : Bool :=
  match decodeWord w with
  | .ok i => i.wellFormed
  | .error _ => false

/-- The host keeps its duties in every command it has still to present. -/
def State.InContract (s : State) : Prop := ∀ w ∈ s.commands, commandInContract w = true

/-- `n` steps from `s` reach `t`, with no refusal on the way. -/
def State.Reaches (s : State) (n : Nat) (t : State) : Prop := Sys2Proof.core.run n s = .next t

/-- A safe run: no step of it is refused, however long it goes on. -/
def State.Safe (s : State) : Prop := ∀ n, ∃ t, s.Reaches n t

end Sys2Proof.Machine
end

