-- ==== Sys2Proof/Certificates/Slice0/Obligations.lean ====
section
/-! DEFINITION. The statements about the machine, one `def Obligations.<Name> : Prop` each; OBLIGATIONS.json lists them with
the rules they formalise. The helper definitions they share stand first. -/

namespace Sys2Proof.Claims

open Sys2Proof.Machine

/-- `k` is the bit, and `o` the byte, that holds pixel `(x, y)`; nothing is when `(x, y)` is off the screen (rules R42, R45,
R85). -/
def PixelBit (x y : Int) (o : Offset) (k : Nat) : Prop :=
  ∃ (px : Fin 256) (py : Fin 192), x = (px.val : Int) ∧ y = (py.val : Int) ∧
    o = scrAddr px py ∧ k = 7 - px.val % 8

/-- `t` is `s` with one more response `r` and, at most, another VRAM: the counter, the ROMs, the commands still to present and
the emitted frames are as before. -/
def OnlyVramAndResponse (s t : State) (r : Response) : Prop :=
  t.frame = s.frame ∧ t.sine = s.sine ∧ t.palette = s.palette ∧ t.commands = s.commands ∧
    t.frames = s.frames ∧ t.responses = s.responses ++ [r]

/-- The 18 opcodes of rule R63. -/
def definedOpcodes : List Byte :=
  [0x10, 0x11, 0x12, 0x13, 0x14, 0x20, 0x21, 0x22, 0x23, 0x24, 0x30, 0x40, 0x50, 0x51, 0x52, 0x53, 0x54, 0x55]

/-- The operations that write VRAM (rule R35). -/
def writesVram : Instr → Prop
  | .scraddr _ _ => False
  | .attraddr _ _ => False
  | .setpixel _ _ => True
  | .clrpixel _ _ => True
  | .getpixel _ _ => False
  | .setattr _ _ _ => True
  | .getattr _ _ => False
  | .makeattr _ _ _ _ => False
  | .cls => True
  | .fillattr _ => True
  | .render => False
  | .drawline _ _ _ _ => True
  | .smul8 _ _ => False
  | .sin _ => False
  | .cos _ => False
  | .rotpair _ _ _ _ => False
  | .rotxyz _ _ _ _ _ _ => False
  | .project _ _ _ _ => False

/-- The operations of the math unit (rule R160). -/
def isMath : Instr → Prop
  | .scraddr _ _ => False
  | .attraddr _ _ => False
  | .setpixel _ _ => False
  | .clrpixel _ _ => False
  | .getpixel _ _ => False
  | .setattr _ _ _ => False
  | .getattr _ _ => False
  | .makeattr _ _ _ _ => False
  | .cls => False
  | .fillattr _ => False
  | .render => False
  | .drawline _ _ _ _ => False
  | .smul8 _ _ => True
  | .sin _ => True
  | .cos _ => True
  | .rotpair _ _ _ _ => True
  | .rotxyz _ _ _ _ _ _ => True
  | .project _ _ _ _ => True

/-- The operations that write pixel bytes only (rule R59). -/
def writesPixelsOnly : Instr → Prop
  | .scraddr _ _ => False
  | .attraddr _ _ => False
  | .setpixel _ _ => True
  | .clrpixel _ _ => True
  | .getpixel _ _ => False
  | .setattr _ _ _ => False
  | .getattr _ _ => False
  | .makeattr _ _ _ _ => False
  | .cls => False
  | .fillattr _ => False
  | .render => False
  | .drawline _ _ _ _ => True
  | .smul8 _ _ => False
  | .sin _ => False
  | .cos _ => False
  | .rotpair _ _ _ _ => False
  | .rotxyz _ _ _ _ _ _ => False
  | .project _ _ _ _ => False

/-- The operations that write attribute bytes only (rule R59). -/
def writesAttributesOnly : Instr → Prop
  | .scraddr _ _ => False
  | .attraddr _ _ => False
  | .setpixel _ _ => False
  | .clrpixel _ _ => False
  | .getpixel _ _ => False
  | .setattr _ _ _ => True
  | .getattr _ _ => False
  | .makeattr _ _ _ _ => False
  | .cls => False
  | .fillattr _ => True
  | .render => False
  | .drawline _ _ _ _ => False
  | .smul8 _ _ => False
  | .sin _ => False
  | .cos _ => False
  | .rotpair _ _ _ _ => False
  | .rotxyz _ _ _ _ _ _ => False
  | .project _ _ _ _ => False

/-- An outcome with `f` applied to its next state, if it has one. -/
def onNext (f : State → State) : Host.Outcome State Fault Refusal → Host.Outcome State Fault Refusal
  | .next t => .next (f t)
  | .fault r => .fault r
  | .refused r => .refused r

/-- The low 8 bits of a slot read as a two's-complement number, in the words of rule R10: `let u = v mod 2^8 in
if u >= 128 then u - 256 else u`. -/
def sext8Spec (v : Int) : Int := if v % 256 ≥ 128 then v % 256 - 256 else v % 256

/-- One component of rule R165: twice an exact sum, divided by 256 rounding toward minus infinity, saturated. -/
def rotSpec (sum : Int) : Int := max (-128) (min 127 ((2 * sum) / 256))

/-- `g` of rule R168: one pass of the rotation by angle 0. -/
def zeroPass (v : Int) : Int := if 1 ≤ v then v - 1 else if v = -128 then -127 else v

/-- The multiplier of PROJECT (rules R169, R170): `sext_8(min(255, floor(vd * 128 / den)))`. -/
def projectMultiplier (vd den : Int) : Int := sext8Spec (min 255 (vd * 128 / den))

/-- The point sequence of rule R146 for endpoints in the order of rule R141. -/
def closedFormPoints (x0 y0 x1 y1 : Int) : List (Int × Int) :=
  let dx := x1 - x0
  let dy := max (y1 - y0) (y0 - y1)
  let sy : Int := if y0 ≤ y1 then 1 else -1
  if dx = 0 ∧ dy = 0 then [(x0, y0)]
  else if dy ≤ dx then (List.range (dx.toNat + 1)).map fun (k : Nat) => (x0 + k, y0 + sy * ((k * dy) / dx))
  else (List.range (dy.toNat + 1)).map fun (k : Nat) => (x0 + (k * dx) / dy, y0 + sy * k)

end Sys2Proof.Claims

open Sys2Proof Sys2Proof.Machine Sys2Proof.Claims

/-! ## Encoding -/

/-- Rules R61, R63, R67, R68: the decoder gives back every encoded operation, with every operand at every value, from its
command word and from its 13 bytes with any bytes after them. -/
def Obligations.DecodeOfEncodeIsIdentity : Prop :=
  ∀ (i : Instr) (rest : List Byte),
    decodeWord (encode i) = .ok i ∧ decode (commandBytes (encode i) ++ rest) = .ok (i, rest)

/-- Rule R65: a command word selects the operation it does by its opcode and its named slots alone; words that agree on those
bits behave alike, and the encoder writes zero in the other slots. -/
def Obligations.UnnamedSlotsAreIgnored : Prop :=
  (∀ (w w' : CommandWord) (i : Instr), decodeWord w = .ok i →
    (decodeWord w' = .ok i ↔ w'.setWidth (8 + 16 * i.arity) = w.setWidth (8 + 16 * i.arity))) ∧
  (∀ (w w' : CommandWord) (i : Instr) (s : State) (rest : List CommandWord), decodeWord w = .ok i →
    w'.setWidth (8 + 16 * i.arity) = w.setWidth (8 + 16 * i.arity) →
    step (s.withCommands (w' :: rest)) = step (s.withCommands (w :: rest))) ∧
  (∀ i : Instr, encode i >>> (8 + 16 * i.arity) = 0)

/-- Rule R66: the opcodes outside rule R63 are 238, and `step` refuses a command word with one of them; a word with an opcode of
rule R63 selects an operation. -/
def Obligations.ReservedOpcodesAreRefused : Prop :=
  ((List.range 256).filter fun n => decide (BitVec.ofNat 8 n ∉ definedOpcodes)).length = 238 ∧
  (∀ (s : State) (w : CommandWord) (rest : List CommandWord), s.commands = w :: rest →
    opcodeOf w ∉ definedOpcodes → step s = .refused (.reservedOpcode (opcodeOf w))) ∧
  (∀ w : CommandWord, opcodeOf w ∈ definedOpcodes → ∃ i, decodeWord w = .ok i ∧ i.opcode = opcodeOf w)

/-- Words written out from rules R61, R63 and R68, one of each family, and the operation each stands for. -/
def Obligations.SampleWordsDecode : Prop :=
  decode [0x12, 0x09, 0x00, 0x01, 0x00, 0, 0, 0, 0, 0, 0, 0, 0] = .ok (.setpixel 9 1, []) ∧
  decode [0x20, 0x01, 0x00, 0x02, 0x00, 0xFF, 0x01, 0, 0, 0, 0, 0, 0] = .ok (.setattr 1 2 0x1FF, []) ∧
  decode [0x30, 0, 0, 0, 0, 0, 0, 0, 0, 0, 0, 0, 0] = .ok (.render, []) ∧
  decode [0x40, 0x0A, 0x00, 0x0A, 0x00, 0x04, 0x00, 0x0C, 0x00, 0, 0, 0, 0] = .ok (.drawline 10 10 4 12, []) ∧
  decode [0x54, 0x32, 0x00, 0x3C, 0x00, 0x46, 0x00, 0x0A, 0x01, 0xEC, 0xFF, 0x2C, 0x01] =
    .ok (.rotxyz 50 60 70 266 (-20) 300, [])

/-- Rule R68: byte `k` of a stored command word is its bits `8k+7 : 8k`, 13 bytes in all, and the bytes give the word back; a
response word is stored in 7 bytes the same way; the rule's two examples. -/
def Obligations.WordsAreStoredLittleEndian : Prop :=
  (∀ w : CommandWord, (commandBytes w).length = 13 ∧ commandOfBytes (commandBytes w) = w ∧
    ∀ k j : Nat, k < 13 → j < 8 → ((commandBytes w)[k]?.getD 0).getLsbD j = w.getLsbD (8 * k + j)) ∧
  (∀ w : ResponseWord, (responseBytes w).length = 7 ∧
    ∀ k j : Nat, k < 7 → j < 8 → ((responseBytes w)[k]?.getD 0).getLsbD j = w.getLsbD (8 * k + j)) ∧
  commandBytes (encode (.setpixel 9 1)) = [0x12, 0x09, 0, 0x01, 0, 0, 0, 0, 0, 0, 0, 0, 0] ∧
  commandBytes (encode (.setpixel (-1) 5)) = [0x12, 0xFF, 0xFF, 0x05, 0, 0, 0, 0, 0, 0, 0, 0, 0]

/-- Rule R62: where each defined slot and the valid bit stand in the response word, whatever the undefined slots carry. -/
def Obligations.ResponseWordFields : Prop :=
  ∀ (n : Nat) (r : Response),
    ((r.word n).getLsbD 0 = false ↔ r = .noProjection) ∧
    (∀ v, r.r0 = some v → (r.word n).extractLsb' 1 16 = v) ∧
    (∀ v, r.r1 = some v → (r.word n).extractLsb' 17 16 = v) ∧
    (∀ v, r.r2 = some v → (r.word n).extractLsb' 33 16 = v)

/-- Rule R70: the three-operand form of PROJECT stands for viewer distance 200, and the block always reads slot `D` of a PROJECT
word. The last clause is the operand range of rule R69: an integer operand is stored as its 16-bit pattern exactly in
-32768..65535. -/
def Obligations.AssemblerOperandsAndPseudoForm : Prop :=
  (∀ x y z : Slot, instrOf "PROJECT" [x, y, z] = instrOf "PROJECT" [x, y, z, 200]) ∧
  (∀ w : CommandWord, opcodeOf w = 0x55 →
    decodeWord w = .ok (.project (slotA w) (slotB w) (slotC w) (slotD w))) ∧
  (∀ (v : Int) (slot : Slot), operandSlot v = some slot ↔
    (-32768 ≤ v ∧ v ≤ 65535 ∧ (slot.toNat : Int) = v % 65536))

/-! ## The transaction, the contract, the whole machine -/

/-- Rule R60: a step presents the next command word and runs the operation it selects, on the state from which that word has been
taken. -/
def Obligations.StepRunsTheDecodedInstruction : Prop :=
  ∀ (s : State) (w : CommandWord) (rest : List CommandWord) (i : Instr),
    s.commands = w :: rest → decodeWord w = .ok i → step s = exec i (s.withCommands rest)

/-- The model's choice of log entry 5 (rules R8, R199 say the block is idle and loses nothing): with no command presented a step
changes nothing. -/
def Obligations.IdleBlockLosesNothing : Prop :=
  ∀ s : State, s.commands = [] → step s = .next s

/-- Rules R81, R83, R100, R101, R192: an operation completes exactly inside its contract; outside it the model refuses, under the
name of the operation, and does not continue with a value; a reserved opcode is refused. -/
def Obligations.RefusedExactlyOutsideTheContract : Prop :=
  (∀ (i : Instr) (s : State), (∃ t, exec i s = .next t) ↔ i.wellFormed = true) ∧
  (∀ (x y : Slot) (s : State), onScreen x y = false → exec (.scraddr x y) s = .refused (.scraddrOutsideScreen x y)) ∧
  (∀ (col row : Slot) (s : State), inGrid col row = false →
    exec (.attraddr col row) s = .refused (.attraddrOutsideGrid col row)) ∧
  (∀ (col row value : Slot) (s : State), inGrid col row = false →
    exec (.setattr col row value) s = .refused (.setattrOutsideGrid col row)) ∧
  (∀ (col row : Slot) (s : State), inGrid col row = false →
    exec (.getattr col row) s = .refused (.getattrOutsideGrid col row)) ∧
  (∀ (s : State) (w : CommandWord) (rest : List CommandWord) (e : DecodeError), s.commands = w :: rest →
    decodeWord w = .error e → ∃ r, step s = .refused r)

/-- Every step keeps the invariant: VRAM in canonical form inside 0..6911, the sine ROM intact, `PALETTE[8] = PALETTE[0]`. -/
def Obligations.StepKeepsTheInvariant : Prop :=
  ∀ s t : State, s.Inv → step s = .next t → t.Inv

/-- The invariant holds after reset. -/
def Obligations.ResetMeetsTheInvariant : Prop := State.reset.Inv

/-- Rule R34: after reset each byte of VRAM holds the unspecified `VRAM_RESET` (a constant without a body), `FRAME = 0` and so the
flash phase is 0, and the ROMs hold their constants. -/
def Obligations.StateAfterReset : Prop :=
  (∀ o : Offset, State.reset.vram.read o = Config.vramReset o.val) ∧
  State.reset.frame = 0 ∧ flashPhase State.reset.frame = false ∧
  State.reset.sine = sineTable ∧ sineTable.toList.map BitVec.toInt = sineValues ∧
  (∀ i : Fin 16, State.reset.palette[i] = if i = 8 then Config.paletteEntry 0 else Config.paletteEntry i.val)

/-- Rule R35: only the six named operations change VRAM, only RENDER changes the frame counter or emits a frame, and nothing writes
the ROMs. -/
def Obligations.OnlyTheNamedOperationsChangeState : Prop :=
  ∀ (i : Instr) (s t : State), exec i s = .next t →
    (¬ writesVram i → t.vram = s.vram) ∧
    (i ≠ .render → t.frame = s.frame ∧ t.frames = s.frames) ∧
    t.sine = s.sine ∧ t.palette = s.palette ∧ t.commands = s.commands

/-- Rule R25: only RENDER writes `FRAME`, always by adding 1, and only RENDER reads it, and of it only bit 5: every other operation does
the same from every value of the counter and leaves it alone, and the frames do not depend on the other bits. -/
def Obligations.OnlyRenderReadsOrWritesTheCounter : Prop :=
  (∀ (s t : State), exec .render s = .next t → t.frame = s.frame + 1) ∧
  (∀ (i : Instr) (s : State) (f : BitVec 6), i ≠ .render →
    exec i { s with frame := f } = onNext (fun t => { t with frame := f }) (exec i s)) ∧
  (∀ (s t u : State) (f : BitVec 6), f.getLsbD 5 = s.frame.getLsbD 5 → exec .render s = .next t →
    exec .render { s with frame := f } = .next u → u.frames = t.frames)

/-- Rule R28, R40: only RENDER reads the palette: every other operation does the same under every palette. -/
def Obligations.OnlyRenderReadsThePalette : Prop :=
  ∀ (i : Instr) (s : State) (p : Vector Rgb 16), i ≠ .render →
    exec i { s with palette := p } = onNext (fun t => { t with palette := p }) (exec i s)

/-- Rule R59: an operation that writes nothing changes nothing at all but the list of responses, by exactly one response. -/
def Obligations.PureOperationsOnlyAnswer : Prop :=
  ∀ (i : Instr) (s t : State), ¬ writesVram i → i ≠ .render → exec i s = .next t → ∃ r, t = s.answer r

/-- Rule R59, the column of writes: the pixel operations and DRAWLINE write pixel bytes only, SETATTR and FILLATTR attribute bytes
only. -/
def Obligations.WritesStayInTheirRegion : Prop :=
  ∀ (i : Instr) (s t : State) (o : Offset), exec i s = .next t → t.vram.read o ≠ s.vram.read o →
    (writesPixelsOnly i ∧ o.val < 6144) ∨ (writesAttributesOnly i ∧ 6144 ≤ o.val) ∨ i = .cls

/-- Rule R32: every operation returns one response, and its `V` is 0 only when PROJECT signals "no projection". -/
def Obligations.ValidBitIsZeroOnlyForNoProjection : Prop :=
  ∀ (i : Instr) (s t : State), exec i s = .next t → ∃ r, t.responses = s.responses ++ [r] ∧
    (r.valid = false ↔ ∃ x y z vd : Slot, i = .project x y z vd ∧ z.toInt + vd.toInt ≤ 0)

/-- Rules R60, R221, R222: a run whose commands keep the host's duties is never refused; it returns one response to each command,
in order, and ends when the last command has been answered. That commands, responses and frames stand in the state is the model's
choice (log entry 4); so are the steps after the last command, which change nothing (log entry 5): `Safe` and the clauses for `n`
beyond the number of commands rest on it. -/
def Obligations.RunsInsideTheContractComplete : Prop :=
  ∀ (s : State), s.InContract → s.Safe ∧ ∀ n, ∃ t, s.Reaches n t ∧ t.commands = s.commands.drop n ∧
    t.responses.length = s.responses.length + min n s.commands.length ∧
    s.responses <+: t.responses ∧ s.frames <+: t.frames

/-- Rules R60, R223: a state whose commands keep the host's duties, with a command to present, makes a step; the command is used up and
answered by one response, and the commands that remain keep the duties. That they stand in the state is the model's choice (log
entry 4). -/
def Obligations.StepKeepsTheContract : Prop :=
  ∀ (s : State) (w : CommandWord) (rest : List CommandWord), s.InContract → s.commands = w :: rest →
    ∃ t r, step s = .next t ∧ t.commands = rest ∧ t.InContract ∧ t.responses = s.responses ++ [r]

/-- Canonical memories with the same listed bytes are equal data. -/
def Obligations.CanonicalMemoriesAreEqualData : Prop :=
  ∀ m m' : Memory, m.wf → m'.wf → (∀ o : Offset, m.lookup o.val = m'.lookup o.val) → m = m'

/-! ## Address translator and pixels -/

/-- Rule R42: the fields of a pixel-region offset. -/
def Obligations.PixelOffsetFields : Prop :=
  ∀ (x : Fin 256) (y : Fin 192),
    (scrAddr x y).val / 2048 = y.val / 64 ∧ (scrAddr x y).val / 256 % 8 = y.val % 8 ∧
    (scrAddr x y).val / 32 % 8 = y.val / 8 % 8 ∧ (scrAddr x y).val % 32 = x.val / 8 ∧
    (scrAddr x y).val < 6144

/-- Rule R43: the steps of the non-linear layout, and its examples. -/
def Obligations.NonLinearLayoutSteps : Prop :=
  (∀ (x : Fin 256) (y y' : Fin 192), y'.val = y.val + 1 → y.val / 8 = y'.val / 8 →
    (scrAddr x y').val = (scrAddr x y).val + 256) ∧
  (∀ (x : Fin 256) (y y' : Fin 192), y'.val = y.val + 8 → y.val / 64 = y'.val / 64 →
    (scrAddr x y').val = (scrAddr x y).val + 32) ∧
  (∀ (x : Fin 256) (y y' : Fin 192), y'.val = y.val + 64 → (scrAddr x y').val = (scrAddr x y).val + 2048) ∧
  (∀ (x x' : Fin 256) (y : Fin 192), x'.val = x.val + 8 → (scrAddr x' y).val = (scrAddr x y).val + 1) ∧
  (scrAddr 0 0).val = 0 ∧ (scrAddr 0 1).val = 256 ∧ (scrAddr 0 7).val = 1792 ∧ (scrAddr 0 8).val = 32 ∧
  (scrAddr 0 63).val = 2016 ∧ (scrAddr 0 64).val = 2048 ∧ (scrAddr 0 128).val = 4096 ∧
  (scrAddr 255 191).val = 6143

/-- Rule R44: the translation is a bijection from the 32 × 192 byte positions onto 0..6143, with the inverse the rule gives. -/
def Obligations.PixelTranslationIsABijection : Prop :=
  ∀ o : Offset, o.val < 6144 →
    (pixelByteOf o.val).1 < 32 ∧ (pixelByteOf o.val).2 < 192 ∧
    ∀ (x : Fin 256) (y : Fin 192),
      scrAddr x y = o ↔ (x.val / 8 = (pixelByteOf o.val).1 ∧ y.val = (pixelByteOf o.val).2)

/-- Rule R81: on the screen SCRADDR answers the offset whose bits are `y[7:6] y[2:0] y[5:3] x[7:3]` and changes nothing else; off
the screen it is refused. -/
def Obligations.ScraddrAnswersTheOffset : Prop :=
  ∀ (x y : Slot) (s : State),
    (onScreen x y = true → exec (.scraddr x y) s = .next (s.answer (.value
      ((y.extractLsb' 6 2 ++ y.extractLsb' 0 3 ++ y.extractLsb' 3 3 ++ x.extractLsb' 3 5).setWidth 16)))) ∧
    (onScreen x y = false → exec (.scraddr x y) s = .refused (.scraddrOutsideScreen x y))

/-- Rule R83: in the grid ATTRADDR answers `6144 + row*32 + col` and changes nothing else; outside it is refused. -/
def Obligations.AttraddrAnswersTheOffset : Prop :=
  ∀ (col row : Slot) (s : State),
    (inGrid col row = true → ∃ v : Slot, exec (.attraddr col row) s = .next (s.answer (.value v)) ∧
      v.toInt = 6144 + row.toInt * 32 + col.toInt) ∧
    (inGrid col row = false → exec (.attraddr col row) s = .refused (.attraddrOutsideGrid col row))

/-- Rules R86, R87: SETPIXEL always completes with `V = 1`, sets the one bit that holds the pixel and changes nothing else; off the
screen it changes nothing. -/
def Obligations.SetpixelSetsOneBit : Prop :=
  ∀ (x y : Slot) (s : State), ∃ t, exec (.setpixel x y) s = .next t ∧ OnlyVramAndResponse s t .done ∧
    (onScreen x y = false → t.vram = s.vram) ∧
    ∀ (o : Offset) (k : Nat),
      ((t.vram.read o).getLsbD k = true ↔ (s.vram.read o).getLsbD k = true ∨ PixelBit x.toInt y.toInt o k)

/-- Rule R88: CLRPIXEL always completes with `V = 1`, clears the one bit that holds the pixel and changes nothing else; off the screen
it changes nothing. -/
def Obligations.ClrpixelClearsOneBit : Prop :=
  ∀ (x y : Slot) (s : State), ∃ t, exec (.clrpixel x y) s = .next t ∧ OnlyVramAndResponse s t .done ∧
    (onScreen x y = false → t.vram = s.vram) ∧
    ∀ (o : Offset) (k : Nat),
      ((t.vram.read o).getLsbD k = true ↔ (s.vram.read o).getLsbD k = true ∧ ¬ PixelBit x.toInt y.toInt o k)

/-- Rule R89: GETPIXEL answers 1 when the bit that holds the pixel is set and 0 otherwise, 0 off the screen, and changes nothing
else. -/
def Obligations.GetpixelAnswersTheBit : Prop :=
  ∀ (x y : Slot) (s : State), ∃ v : Slot, exec (.getpixel x y) s = .next (s.answer (.value v)) ∧
    (v = 0 ∨ v = 1) ∧
    (v = 1 ↔ ∃ (o : Offset) (k : Nat), PixelBit x.toInt y.toInt o k ∧ (s.vram.read o).getLsbD k = true)

/-- Rule R90, properties 1 and 2: GETPIXEL answers 1 after SETPIXEL and 0 after CLRPIXEL of the same pixel, and every other pixel
answers as before. -/
def Obligations.PixelsAreIndependent : Prop :=
  ∀ (x y x' y' : Slot) (s t u : State), exec (.setpixel x y) s = .next t → exec (.clrpixel x y) s = .next u →
    (onScreen x y = true → exec (.getpixel x y) t = .next (t.answer (.value 1))) ∧
    exec (.getpixel x y) u = .next (u.answer (.value 0)) ∧
    ((x', y') ≠ (x, y) → ∀ v : Slot, exec (.getpixel x' y') s = .next (s.answer (.value v)) →
      exec (.getpixel x' y') t = .next (t.answer (.value v)) ∧
      exec (.getpixel x' y') u = .next (u.answer (.value v)))

/-! ## Attributes and fills -/

/-- Rule R100: in the grid SETATTR stores the low 8 bits of the value at `6144 + row*32 + col` and changes no other byte and nothing
else; outside it is refused. -/
def Obligations.SetattrStoresOneByte : Prop :=
  ∀ (col row value : Slot) (s : State),
    (inGrid col row = true → ∃ t, exec (.setattr col row value) s = .next t ∧ OnlyVramAndResponse s t .done ∧
      ∀ o : Offset, t.vram.read o =
        if (o.val : Int) = 6144 + row.toInt * 32 + col.toInt then BitVec.ofNat 8 (value.toNat % 256)
        else s.vram.read o) ∧
    (inGrid col row = false → exec (.setattr col row value) s = .refused (.setattrOutsideGrid col row))

/-- Rule R101: in the grid GETATTR answers the byte at `6144 + row*32 + col`, zero-extended, and changes nothing else; outside it is
refused. -/
def Obligations.GetattrAnswersTheByte : Prop :=
  ∀ (col row : Slot) (s : State),
    (inGrid col row = true → ∃ o : Offset, (o.val : Int) = 6144 + row.toInt * 32 + col.toInt ∧
      exec (.getattr col row) s = .next (s.answer (.value ((s.vram.read o).setWidth 16)))) ∧
    (inGrid col row = false → exec (.getattr col row) s = .refused (.getattrOutsideGrid col row))

/-- Rule R102: MAKEATTR packs `flash bright paper ink`, ink and paper mod 8, any non-zero flag as 1, and changes nothing else. -/
def Obligations.MakeattrPacksTheFields : Prop :=
  ∀ (ink paper bright flash : Slot) (s : State), ∃ v : Slot,
    exec (.makeattr ink paper bright flash) s = .next (s.answer (.value v)) ∧
    v.toNat = (if flash.toInt ≠ 0 then 128 else 0) + (if bright.toInt ≠ 0 then 64 else 0) +
      8 * (paper.toNat % 8) + ink.toNat % 8

/-- Rule R103: the decode of the attribute byte, that it gives back what MAKEATTR packed, mod 8 and as flags, and that packing the
decoded fields of any byte gives the byte back. -/
def Obligations.AttributeDecodeInvertsMakeattr : Prop :=
  (∀ b : Byte, (decodeAttr b).ink.toNat = b.toNat % 8 ∧ (decodeAttr b).paper.toNat = b.toNat / 8 % 8 ∧
    (decodeAttr b).bright = b.getLsbD 6 ∧ (decodeAttr b).flash = b.getLsbD 7 ∧ packAttr (decodeAttr b) = b) ∧
  (∀ (ink paper bright flash : Slot) (s : State), ∃ v : Slot,
    exec (.makeattr ink paper bright flash) s = .next (s.answer (.value v)) ∧
    (decodeAttr (v.setWidth 8)).ink.toNat = ink.toNat % 8 ∧
    (decodeAttr (v.setWidth 8)).paper.toNat = paper.toNat % 8 ∧
    ((decodeAttr (v.setWidth 8)).bright = true ↔ bright ≠ 0) ∧
    ((decodeAttr (v.setWidth 8)).flash = true ↔ flash ≠ 0))

/-- Rule R104: CLS zero-fills all 6912 bytes and changes nothing else; after it every GETPIXEL and every attribute read answers 0, and
every pixel of a rendered frame has colour index 0. -/
def Obligations.ClsZeroFills : Prop :=
  ∀ s : State, ∃ t, exec .cls s = .next t ∧ OnlyVramAndResponse s t .done ∧
    (∀ o : Offset, t.vram.read o = 0) ∧
    (∀ x y : Slot, exec (.getpixel x y) t = .next (t.answer (.value 0))) ∧
    (∀ col row : Slot, inGrid col row = true → exec (.getattr col row) t = .next (t.answer (.value 0))) ∧
    (∀ (phase : Bool) (x : Fin 256) (y : Fin 192), (renderFrame t.vram t.palette phase).indices[y][x] = 0)

/-- Rule R105: FILLATTR sets every byte of the attribute region to the low 8 bits of the value and changes nothing else. -/
def Obligations.FillattrFillsTheAttributeRegion : Prop :=
  ∀ (value : Slot) (s : State), ∃ t, exec (.fillattr value) s = .next t ∧ OnlyVramAndResponse s t .done ∧
    ∀ o : Offset, t.vram.read o =
      if 6144 ≤ o.val then BitVec.ofNat 8 (value.toNat % 256) else s.vram.read o

/-- Rule R106, law 3: FILLATTR does not change any GETPIXEL result; SETPIXEL, CLRPIXEL and DRAWLINE do not change any GETATTR
result. -/
def Obligations.PixelsAndAttributesDoNotDisturbEachOther : Prop :=
  ∀ (i : Instr) (s t : State), exec i s = .next t →
    (∀ value, i = .fillattr value → ∀ (x y v : Slot), exec (.getpixel x y) s = .next (s.answer (.value v)) →
      exec (.getpixel x y) t = .next (t.answer (.value v))) ∧
    ((∃ x y, i = .setpixel x y ∨ i = .clrpixel x y) ∨ (∃ a b c d, i = .drawline a b c d) →
      ∀ (col row v : Slot), exec (.getattr col row) s = .next (s.answer (.value v)) →
        exec (.getattr col row) t = .next (t.answer (.value v)))

/-! ## Renderer -/

/-- Rules R120, R127: RENDER completes with `V = 1`; it emits exactly one frame, computed with the phase the counter had before the
increment, advances the counter by one modulo 64, and changes nothing else. -/
def Obligations.RenderEmitsOneFrame : Prop :=
  ∀ s : State, ∃ t, exec .render s = .next t ∧
    t.frames = s.frames ++ [renderFrame s.vram s.palette (s.frame.getLsbD 5)] ∧
    t.frame.toNat = (s.frame.toNat + 1) % 64 ∧ t.responses = s.responses ++ [.done] ∧
    t.vram = s.vram ∧ t.sine = s.sine ∧ t.palette = s.palette ∧ t.commands = s.commands

/-- Rules R122 to R125: every pixel of the frame RENDER emits. The colours are those of the pixel's cell, each 8 more when the cell
is bright, swapped when the phase is 1 and the cell flashes; a set bit shows ink; the palette gives the pixel its components, with
full opacity. -/
def Obligations.RenderedPixelsFollowTheCellRules : Prop :=
  ∀ s : State, ∃ t f, exec .render s = .next t ∧ t.frames = s.frames ++ [f] ∧
    ∀ (x : Fin 256) (y : Fin 192),
      let attr := s.vram.read (attrAddr ⟨x.val / 8, by omega⟩ ⟨y.val / 8, by omega⟩)
      let ink := attr.toNat % 8 + if attr.getLsbD 6 then 8 else 0
      let paper := attr.toNat / 8 % 8 + if attr.getLsbD 6 then 8 else 0
      let swapped := s.frame.getLsbD 5 && attr.getLsbD 7
      let index := f.indices[y][x]
      index.toNat = (if (s.vram.read (scrAddr x y)).getLsbD (7 - x.val % 8) then (if swapped then paper else ink)
        else (if swapped then ink else paper)) ∧
      f.pixels[y][x] = ⟨(s.palette[index.toNat]'index.isLt).r, (s.palette[index.toNat]'index.isLt).g,
        (s.palette[index.toNat]'index.isLt).b, 255⟩

/-- Rule R121: in every run from a state with the counter at 0 and no frame emitted, the RENDER numbered `k` (the one that is issued
when `k` frames have been emitted) uses phase 1 exactly when `k / 32` is odd. -/
def Obligations.FlashPhaseTogglesEvery32Frames : Prop :=
  ∀ (s t : State) (n : Nat), s.frame = 0 → s.frames = [] → s.Reaches n t →
    ∃ u, exec .render t = .next u ∧
      u.frames = t.frames ++ [renderFrame t.vram t.palette (decide (t.frames.length / 32 % 2 = 1))]

/-- Rule R123: the two phases give a pixel different indices exactly when its cell's flash bit is set and the cell's ink and paper
differ. -/
def Obligations.OnlyFlashingCellsChangeWithThePhase : Prop :=
  ∀ (m : Memory) (p : Vector Rgb 16) (x : Fin 256) (y : Fin 192),
    let attr := m.read (attrAddr ⟨x.val / 8, by omega⟩ ⟨y.val / 8, by omega⟩)
    (renderFrame m p true).indices[y][x] ≠ (renderFrame m p false).indices[y][x] ↔
      (attr.getLsbD 7 = true ∧ attr.toNat % 8 ≠ attr.toNat / 8 % 8)

/-- Rule R126: the linear layout of a frame. -/
def Obligations.FrameByteLayout : Prop :=
  ∀ f : Frame, f.bytes.length = 196608 ∧ ∀ (x : Fin 256) (y : Fin 192),
    f.bytes[4 * (256 * y.val + x.val)]? = some f.pixels[y][x].r ∧
    f.bytes[4 * (256 * y.val + x.val) + 1]? = some f.pixels[y][x].g ∧
    f.bytes[4 * (256 * y.val + x.val) + 2]? = some f.pixels[y][x].b ∧
    f.bytes[4 * (256 * y.val + x.val) + 3]? = some f.pixels[y][x].a

/-- Rule R131: the up-scaled image is `256N × 192N` with `OUT[Y][X] = F[Y / N][X / N]`. -/
def Obligations.UpscaledFrameReplicatesPixels : Prop :=
  ∀ (f : Frame) (n : Nat), 1 ≤ n → (f.upscaled n).length = 192 * n ∧
    ∀ (Y : Fin (192 * n)) (X : Fin (256 * n)), ∃ row, (f.upscaled n)[Y.val]? = some row ∧
      row.length = 256 * n ∧
      row[X.val]? = some (f.pixels[Y.val / n]'(Nat.div_lt_of_lt_mul (Nat.mul_comm 192 n ▸ Y.isLt))
        |>.get ⟨X.val / n, Nat.div_lt_of_lt_mul (Nat.mul_comm 256 n ▸ X.isLt)⟩)

/-! ## Line -/

/-- Rule R146: the step-by-step rasterizer of rules R142 to R145 generates the closed form, point for point, for endpoints in the
order of rule R141. -/
def Obligations.LinePointsClosedForm : Prop :=
  ∀ x0 y0 x1 y1 : Int, x0 ≤ x1 → linePoints x0 y0 x1 y1 = closedFormPoints x0 y0 x1 y1

/-- Rules R140, R147: DRAWLINE always completes with `V = 1`; it sets exactly the bits that hold the points of the line that are on
the screen, and changes nothing else. -/
def Obligations.DrawlineSetsExactlyTheLine : Prop :=
  ∀ (x0 y0 x1 y1 : Slot) (s : State), ∃ t, exec (.drawline x0 y0 x1 y1) s = .next t ∧
    OnlyVramAndResponse s t .done ∧
    ∀ (o : Offset) (k : Nat), ((t.vram.read o).getLsbD k = true ↔
      (s.vram.read o).getLsbD k = true ∨
      ∃ p ∈ linePoints x0.toInt y0.toInt x1.toInt y1.toInt, PixelBit p.1 p.2 o k)

/-- Rule R141 (and R149, case 7): the order in which the two endpoints are given cannot be observed in VRAM; when `x0 != x1` the very
same points are plotted. -/
def Obligations.EndpointOrderCannotBeObserved : Prop :=
  (∀ a b c d : Int, a ≠ c → linePoints a b c d = linePoints c d a b) ∧
  (∀ (a b c d : Slot) (s : State), ∃ t u, exec (.drawline a b c d) s = .next t ∧
    exec (.drawline c d a b) s = .next u ∧ ∀ o : Offset, t.vram.read o = u.vram.read o)

/-- Rules R146, R148: a line has one point per step of its longer side and at most 65536; it begins and ends at its endpoints and stays
inside their bounding box. -/
def Obligations.LineStaysBetweenItsEndpoints : Prop :=
  ∀ a b c d : Slot, a.toInt ≤ c.toInt →
    let points := linePoints a.toInt b.toInt c.toInt d.toInt
    (points.length : Int) = max (c.toInt - a.toInt) (max (d.toInt - b.toInt) (b.toInt - d.toInt)) + 1 ∧
    points.length ≤ 65536 ∧
    points.head? = some (a.toInt, b.toInt) ∧ points.getLast? = some (c.toInt, d.toInt) ∧
    ∀ p ∈ points, a.toInt ≤ p.1 ∧ p.1 ≤ c.toInt ∧
      min b.toInt d.toInt ≤ p.2 ∧ p.2 ≤ max b.toInt d.toInt

/-! ## Math unit -/

/-- Rule R161: SMUL8 answers the exact product of the low bytes read as signed, which always fits, and changes nothing else. -/
def Obligations.Smul8AnswersTheExactProduct : Prop :=
  ∀ (a b : Slot) (s : State), ∃ v : Slot, exec (.smul8 a b) s = .next (s.answer (.value v)) ∧
    v.toInt = sext8Spec a.toInt * sext8Spec b.toInt ∧ -16256 ≤ v.toInt ∧ v.toInt ≤ 16384

/-- Rules R162, R164: SIN answers the ROM entry of the angle mod 256, COS the entry 64 further on, sign-extended; with the ROM of the
block the answer is never -128; neither changes anything else. -/
def Obligations.SinAndCosAnswerTheRomEntry : Prop :=
  ∀ (angle : Slot) (s : State),
    (∃ v : Slot, exec (.sin angle) s = .next (s.answer (.value v)) ∧
      v.toInt = (s.sine[angle.toNat % 256]'(Nat.mod_lt _ (by decide))).toInt ∧
      (s.sine = sineTable → -127 ≤ v.toInt ∧ v.toInt ≤ 127)) ∧
    (∃ v : Slot, exec (.cos angle) s = .next (s.answer (.value v)) ∧
      v.toInt = (s.sine[(angle.toNat + 64) % 256]'(Nat.mod_lt _ (by decide))).toInt ∧
      (s.sine = sineTable → -127 ≤ v.toInt ∧ v.toInt ≤ 127))

/-- Rule R27, the two symmetries of the table, seen through SIN: half a turn negates, and the angle reflected at a quarter turn gives
the same answer. -/
def Obligations.SineSymmetries : Prop :=
  ∀ (angle : Slot) (s : State), s.sine = sineTable → ∃ v : Slot,
    exec (.sin angle) s = .next (s.answer (.value v)) ∧
    exec (.sin (angle + 128)) s = .next (s.answer (.value (-v))) ∧
    exec (.sin (128 - angle)) s = .next (s.answer (.value v))

/-- Rule R26: entry `i` of the sine ROM is `127 * sin(2π·i/256)` rounded (it is less than one half away from it), in -127..127, and
no operation writes the ROM. -/
def Obligations.SineRomIsTheRoundedSine : Prop :=
  (∀ i : Fin 256,
    |127 * Real.sin (2 * Real.pi * (i.val : ℝ) / 256) - ((State.reset.sine[i]).toInt : ℝ)| < 1 / 2 ∧
    -127 ≤ (State.reset.sine[i]).toInt ∧ (State.reset.sine[i]).toInt ≤ 127) ∧
  (∀ (i : Instr) (s t : State), exec i s = .next t → t.sine = s.sine)

/-- Rules R165, R166: ROTPAIR answers the two saturated components and changes nothing else. -/
def Obligations.RotpairAnswers : Prop :=
  ∀ (a b sinVal cosVal : Slot) (s : State), ∃ v w : Slot,
    exec (.rotpair a b sinVal cosVal) s = .next (s.answer (.pair v w)) ∧
    v.toInt = rotSpec (sext8Spec a.toInt * sext8Spec cosVal.toInt - sext8Spec b.toInt * sext8Spec sinVal.toInt) ∧
    w.toInt = rotSpec (sext8Spec a.toInt * sext8Spec sinVal.toInt + sext8Spec b.toInt * sext8Spec cosVal.toInt)

/-- Rule R167: ROTXYZ rotates (x, y) by angleZ, then (resulting x, original z) by angleY, then (resulting y, resulting z) by angleX,
each step feeding its saturated results forward, answers the triple, and changes nothing else. -/
def Obligations.RotxyzAnswers : Prop :=
  ∀ (x y z angleX angleY angleZ : Slot) (s : State), ∃ r0 r1 r2 : Slot,
    exec (.rotxyz x y z angleX angleY angleZ) s = .next (s.answer (.triple r0 r1 r2)) ∧
    let SIN := fun a : Slot => (s.sine[a.toNat % 256]'(Nat.mod_lt _ (by decide))).toInt
    let COS := fun a : Slot => (s.sine[(a.toNat + 64) % 256]'(Nat.mod_lt _ (by decide))).toInt
    let x1 := rotSpec (sext8Spec x.toInt * COS angleZ - sext8Spec y.toInt * SIN angleZ)
    let y1 := rotSpec (sext8Spec x.toInt * SIN angleZ + sext8Spec y.toInt * COS angleZ)
    let x2 := rotSpec (x1 * COS angleY - sext8Spec z.toInt * SIN angleY)
    let z1 := rotSpec (x1 * SIN angleY + sext8Spec z.toInt * COS angleY)
    let y2 := rotSpec (y1 * COS angleX - z1 * SIN angleX)
    let z2 := rotSpec (y1 * SIN angleX + z1 * COS angleX)
    r0.toInt = x2 ∧ r1.toInt = y2 ∧ r2.toInt = z2

/-- Rule R168: with all angles 0, ROTXYZ passes every component twice through `g`, which is not the identity. -/
def Obligations.RotationByZeroLosesPrecision : Prop :=
  ∀ (x y z : Slot) (s : State), s.sine = sineTable → ∃ r0 r1 r2 : Slot,
    exec (.rotxyz x y z 0 0 0) s = .next (s.answer (.triple r0 r1 r2)) ∧
    r0.toInt = zeroPass (zeroPass (sext8Spec x.toInt)) ∧
    r1.toInt = zeroPass (zeroPass (sext8Spec y.toInt)) ∧
    r2.toInt = zeroPass (zeroPass (sext8Spec z.toInt))

/-- Rule R169: PROJECT signals "no projection" exactly when the denominator is not positive, otherwise answers the two wrapped
coordinates; it changes nothing else. -/
def Obligations.ProjectAnswers : Prop :=
  ∀ (x y z vd : Slot) (s : State),
    (z.toInt + vd.toInt ≤ 0 → exec (.project x y z vd) s = .next (s.answer .noProjection)) ∧
    (0 < z.toInt + vd.toInt → ∃ sx sy : Slot, exec (.project x y z vd) s = .next (s.answer (.pair sx sy)) ∧
      sx.toInt = (128 + (sext8Spec x.toInt * projectMultiplier vd.toInt (z.toInt + vd.toInt) * 2) / 256) % 256 ∧
      sy.toInt = (96 + (sext8Spec y.toInt * projectMultiplier vd.toInt (z.toInt + vd.toInt) * 2) / 256) % 256)

/-- Rule R170: for a positive viewer distance the scale is in 0..127 and multiplies as itself when `z` is positive; when `z` is 0 or
negative it is in 128..255 and multiplies as a negative number. -/
def Obligations.ProjectMultiplierSign : Prop :=
  ∀ z vd : Slot, 0 < vd.toInt → 0 < z.toInt + vd.toInt →
    let scale := projectScale vd.toInt (z.toInt + vd.toInt)
    (0 < z.toInt → 0 ≤ scale ∧ scale ≤ 127 ∧ sext8Int scale = scale) ∧
    (z.toInt ≤ 0 → 128 ≤ scale ∧ scale ≤ 255 ∧ sext8Int scale = scale - 256 ∧ sext8Int scale < 0)

/-- Rule R160: an operation of the math unit is a pure function of its operands and of the sine ROM: it gives the same response in any
two states with the same ROM, and changes nothing else. -/
def Obligations.MathUnitIsAPureFunction : Prop :=
  ∀ i : Instr, isMath i → ∀ s s' : State, s.sine = s'.sine →
    ∃ r, exec i s = .next (s.answer r) ∧ exec i s' = .next (s'.answer r)
end

