-- ==== Sys2Proof/Laws/Decode.lean ====
section
/-! SUPPORT. The fields of a packed command word, and the bytes of a word. -/

namespace Sys2Proof

section
variable (op : Byte) (a b c d e f : Slot)

/-- The number a packed command word is. -/
theorem packCommand_toNat : (packCommand op a b c d e f).toNat =
    op.toNat + 2 ^ 8 * a.toNat + 2 ^ 24 * b.toNat + 2 ^ 40 * c.toNat + 2 ^ 56 * d.toNat + 2 ^ 72 * e.toNat +
      2 ^ 88 * f.toNat := by
  have ho := op.isLt; have ha := a.isLt; have hb := b.isLt; have hc := c.isLt
  have hd := d.isLt; have he := e.isLt; have hf := f.isLt
  simp only [packCommand, BitVec.toNat_append]
  rw [← Nat.shiftLeft_add_eq_or_of_lt he, ← Nat.shiftLeft_add_eq_or_of_lt hd, ← Nat.shiftLeft_add_eq_or_of_lt hc,
    ← Nat.shiftLeft_add_eq_or_of_lt hb, ← Nat.shiftLeft_add_eq_or_of_lt ha, ← Nat.shiftLeft_add_eq_or_of_lt ho]
  simp only [Nat.shiftLeft_eq]; omega

@[simp] theorem opcodeOf_packCommand : opcodeOf (packCommand op a b c d e f) = op := by
  apply BitVec.eq_of_toNat_eq
  rw [opcodeOf, BitVec.extractLsb'_toNat, packCommand_toNat, Nat.shiftRight_eq_div_pow]
  have := op.isLt; omega

@[simp] theorem slotA_packCommand : slotA (packCommand op a b c d e f) = a := by
  apply BitVec.eq_of_toNat_eq
  rw [slotA, BitVec.extractLsb'_toNat, packCommand_toNat, Nat.shiftRight_eq_div_pow]
  have := op.isLt; have := a.isLt; omega

@[simp] theorem slotB_packCommand : slotB (packCommand op a b c d e f) = b := by
  apply BitVec.eq_of_toNat_eq
  rw [slotB, BitVec.extractLsb'_toNat, packCommand_toNat, Nat.shiftRight_eq_div_pow]
  have := op.isLt; have := a.isLt; have := b.isLt; omega

@[simp] theorem slotC_packCommand : slotC (packCommand op a b c d e f) = c := by
  apply BitVec.eq_of_toNat_eq
  rw [slotC, BitVec.extractLsb'_toNat, packCommand_toNat, Nat.shiftRight_eq_div_pow]
  have := op.isLt; have := a.isLt; have := b.isLt; have := c.isLt; omega

@[simp] theorem slotD_packCommand : slotD (packCommand op a b c d e f) = d := by
  apply BitVec.eq_of_toNat_eq
  rw [slotD, BitVec.extractLsb'_toNat, packCommand_toNat, Nat.shiftRight_eq_div_pow]
  have := op.isLt; have := a.isLt; have := b.isLt; have := c.isLt; have := d.isLt; omega

@[simp] theorem slotE_packCommand : slotE (packCommand op a b c d e f) = e := by
  apply BitVec.eq_of_toNat_eq
  rw [slotE, BitVec.extractLsb'_toNat, packCommand_toNat, Nat.shiftRight_eq_div_pow]
  have := op.isLt; have := a.isLt; have := b.isLt; have := c.isLt; have := d.isLt; have := e.isLt; omega

@[simp] theorem slotF_packCommand : slotF (packCommand op a b c d e f) = f := by
  apply BitVec.eq_of_toNat_eq
  rw [slotF, BitVec.extractLsb'_toNat, packCommand_toNat, Nat.shiftRight_eq_div_pow]
  have := op.isLt; have := a.isLt; have := b.isLt; have := c.isLt; have := d.isLt; have := e.isLt
  have := f.isLt; omega

end

@[simp] theorem littleEndian_length {n : Nat} (count : Nat) (w : BitVec n) : (littleEndian count w).length = count := by
  simp [littleEndian]

/-- Byte `k` of a serialised word is its bits `8k+7 : 8k`. -/
theorem littleEndian_getElem? {n : Nat} (count : Nat) (w : BitVec n) (k : Nat) (h : k < count) :
    (littleEndian count w)[k]? = some (w.extractLsb' (8 * k) 8) := by
  simp [littleEndian, h]

end Sys2Proof
end

