-- ==== Sys2Proof/Laws/Memory.lean ====
section
/-! SUPPORT. The laws of VRAM: a read after a write, and that every memory operation keeps the canonical form. -/

namespace Sys2Proof.Machine

/-! ## Lookup -/

@[simp] theorem Memory.lookup_nil (o : Nat) : Memory.lookup [] o = none := rfl

@[simp] theorem Memory.lookup_cons (a : Nat) (b : Byte) (m : Memory) (o : Nat) :
    Memory.lookup ((a, b) :: m) o = if a = o then some b else Memory.lookup m o := rfl

/-- An address that no entry has looks up as nothing. -/
theorem Memory.lookup_eq_none {m : Memory} {o : Nat} (h : ∀ c ∈ m, c.1 ≠ o) : Memory.lookup m o = none := by
  induction m with
  | nil => rfl
  | cons c m ih =>
    obtain ⟨a, b⟩ := c
    have ha : a ≠ o := h (a, b) List.mem_cons_self
    simp [ha, ih fun c hc => h c (List.mem_cons_of_mem _ hc)]

/-- In a memory with rising addresses, an entry is what its address looks up as. -/
theorem Memory.lookup_of_mem {m : Memory} (hm : m.Pairwise (fun a b => a.1 < b.1)) {a : Nat} {b : Byte}
    (h : (a, b) ∈ m) : Memory.lookup m a = some b := by
  induction m with
  | nil => cases h
  | cons c m ih =>
    obtain ⟨a', b'⟩ := c
    rw [List.pairwise_cons] at hm
    rcases List.mem_cons.1 h with h | h
    · cases h; simp
    · have := hm.1 _ h
      simp only [Memory.lookup_cons]
      rw [if_neg (by simp only at this; omega), ih hm.2 h]

/-- What an address looks up as is an entry. -/
theorem Memory.mem_of_lookup {m : Memory} {a : Nat} {b : Byte} (h : Memory.lookup m a = some b) : (a, b) ∈ m := by
  induction m with
  | nil => cases h
  | cons c m ih =>
    obtain ⟨a', b'⟩ := c
    simp only [Memory.lookup_cons] at h
    split at h
    · simp_all
    · exact List.mem_cons_of_mem _ (ih h)

/-! ## One write -/

theorem Memory.lookup_insert (m : Memory) (o : Nat) (v : Byte) (p : Nat) :
    (m.insert o v).lookup p = if p = o then some v else m.lookup p := by
  induction m with
  | nil => simp [Memory.insert, eq_comm]
  | cons c m ih =>
    obtain ⟨a, b⟩ := c
    simp only [Memory.insert]
    split
    · simp only [Memory.lookup_cons]; split_ifs <;> first | rfl | omega
    · split
      · subst_vars; simp only [Memory.lookup_cons]; split_ifs <;> first | rfl | omega
      · simp only [Memory.lookup_cons, ih]; split_ifs <;> first | rfl | omega

/-- An entry of a memory after a write is the one written, or an entry from before. -/
theorem Memory.mem_insert {m : Memory} {o : Nat} {v : Byte} {c : Host.Cell} (h : c ∈ m.insert o v) :
    c = (o, v) ∨ c ∈ m := by
  induction m with
  | nil => simpa [Memory.insert] using h
  | cons d m ih =>
    obtain ⟨a, b⟩ := d
    simp only [Memory.insert] at h
    split at h
    · simpa using h
    · split at h
      · rcases List.mem_cons.1 h with h | h
        · exact .inl h
        · exact .inr (List.mem_cons_of_mem _ h)
      · rcases List.mem_cons.1 h with h | h
        · exact .inr (by simp [h])
        · exact (ih h).imp id (List.mem_cons_of_mem _)

theorem Memory.pairwise_insert {m : Memory} (o : Nat) (v : Byte) (h : m.Pairwise (fun a b => a.1 < b.1)) :
    (m.insert o v).Pairwise (fun a b => a.1 < b.1) := by
  induction m with
  | nil => simp [Memory.insert]
  | cons d m ih =>
    obtain ⟨a, b⟩ := d
    rw [List.pairwise_cons] at h
    simp only [Memory.insert]
    split
    · rename_i hlt
      refine List.pairwise_cons.2 ⟨fun c hc => ?_, List.pairwise_cons.2 h⟩
      rcases List.mem_cons.1 hc with hc | hc
      · subst hc; exact hlt
      · have := h.1 c hc; simp only at this ⊢; omega
    · split
      · subst_vars; exact List.pairwise_cons.2 h
      · refine List.pairwise_cons.2 ⟨fun c hc => ?_, ih h.2⟩
        rcases Memory.mem_insert hc with hc | hc
        · subst hc; simp only; omega
        · exact h.1 c hc

theorem Memory.wf_write {m : Memory} (h : m.wf) (o : Offset) (v : Byte) : (m.write o v).wf := by
  refine ⟨Memory.pairwise_insert _ _ h.1, fun c hc => ?_⟩
  rcases Memory.mem_insert hc with hc | hc
  · subst hc; exact o.isLt
  · exact h.2 c hc

/-- A read after a write (rule R54): the byte written at its offset, every other byte as before. -/
theorem Memory.read_write (m : Memory) (o p : Offset) (v : Byte) :
    (m.write o v).read p = if p = o then v else m.read p := by
  simp only [Memory.read, Memory.write, Memory.lookup_insert]
  by_cases h : p = o
  · simp [h]
  · rw [if_neg h, if_neg (by simpa [Fin.ext_iff] using h)]

@[simp] theorem Memory.read_write_self (m : Memory) (o : Offset) (v : Byte) : (m.write o v).read o = v := by
  simp [Memory.read_write]

theorem Memory.read_write_other (m : Memory) {o p : Offset} (v : Byte) (h : p ≠ o) :
    (m.write o v).read p = m.read p := by
  simp [Memory.read_write, h]

/-! ## A fill -/

theorem Memory.lookup_append (m n : Memory) (o : Nat) :
    Memory.lookup (m ++ n) o = (Memory.lookup m o).or (Memory.lookup n o) := by
  induction m with
  | nil => simp
  | cons c m ih =>
    obtain ⟨a, b⟩ := c
    simp only [List.cons_append, Memory.lookup_cons, ih]
    split <;> simp

theorem Memory.lookup_filter (m : Memory) (q : Nat → Bool) (o : Nat) :
    Memory.lookup (m.filter fun c => q c.1) o = if q o then Memory.lookup m o else none := by
  induction m with
  | nil => simp
  | cons c m ih =>
    obtain ⟨a, b⟩ := c
    by_cases hq : q a
    · simp only [List.filter_cons, hq, if_true, Memory.lookup_cons, ih]
      by_cases ha : a = o
      · subst ha; simp [hq]
      · simp [ha]
    · simp only [List.filter_cons, hq, Memory.lookup_cons]
      by_cases ha : a = o
      · subst ha; simp [hq, ih]
      · simp [ha, ih]

theorem Memory.lookup_block (lo n : Nat) (v : Byte) (o : Nat) :
    Memory.lookup ((List.range' lo n).map fun a => (a, v)) o =
      if lo ≤ o ∧ o < lo + n then some v else none := by
  induction n generalizing lo with
  | zero => simp
  | succ n ih =>
    simp only [List.range'_succ, List.map_cons, Memory.lookup_cons, ih]
    split_ifs <;> first | rfl | omega

theorem Memory.lookup_fill (m : Memory) (lo n : Nat) (v : Byte) (o : Nat) :
    (m.fill lo n v).lookup o = if lo ≤ o ∧ o < lo + n then some v else m.lookup o := by
  simp only [Memory.fill, Memory.lookup_append, Memory.lookup_block,
    Memory.lookup_filter m (fun a => decide (a < lo)), Memory.lookup_filter m (fun a => decide (lo + n ≤ a)),
    decide_eq_true_eq]
  split_ifs <;> first | omega | simp

/-- A read after a fill: the byte filled inside the range, every other byte as before. -/
theorem Memory.read_fill (m : Memory) (lo n : Nat) (v : Byte) (o : Offset) :
    (m.fill lo n v).read o = if lo ≤ o.val ∧ o.val < lo + n then v else m.read o := by
  simp only [Memory.read, Memory.lookup_fill]
  split <;> simp

theorem Memory.wf_fill {m : Memory} (h : m.wf) {lo n : Nat} (v : Byte) (hn : lo + n ≤ Config.vramSize) :
    (m.fill lo n v).wf := by
  obtain ⟨hp, hb⟩ := h
  have hblock : ((List.range' lo n).map fun a => ((a, v) : Host.Cell)).Pairwise (fun a b => a.1 < b.1) := by
    rw [List.pairwise_map]; exact List.pairwise_lt_range'
  refine ⟨?_, fun c hc => ?_⟩
  · unfold Memory.fill
    rw [List.pairwise_append, List.pairwise_append]
    refine ⟨⟨hp.filter _, hblock, ?_⟩, hp.filter _, ?_⟩
    · intro a ha b hb
      simp only [List.mem_filter, decide_eq_true_eq] at ha
      simp only [List.mem_map, List.mem_range'_1] at hb
      obtain ⟨o, ho, rfl⟩ := hb
      simp only; omega
    · intro a ha b hb
      simp only [List.mem_filter, decide_eq_true_eq] at hb
      simp only [List.mem_append, List.mem_filter, decide_eq_true_eq, List.mem_map, List.mem_range'_1] at ha
      rcases ha with ha | ⟨o, ho, rfl⟩
      · omega
      · simp only; omega
  · simp only [Memory.fill, List.mem_append, List.mem_filter, List.mem_map, List.mem_range'_1] at hc
    rcases hc with (hc | ⟨o, ho, rfl⟩) | hc
    · exact hb c hc.1
    · simp only; omega
    · exact hb c hc.1

end Sys2Proof.Machine
end

