-- ==== Sys2Proof/Laws/Ops.lean ====
section
/-! SUPPORT. One specification lemma for each shared operation: the range checks, the translator, the pixel functions. -/

namespace Sys2Proof.Machine

/-! ## Range checks -/

theorem screenPoint?_eq_some {x y : Int} {px : Fin 256} {py : Fin 192} :
    screenPoint? x y = some (px, py) ↔ x = (px.val : Int) ∧ y = (py.val : Int) := by
  unfold screenPoint?
  split
  · simp only [Option.some.injEq, Prod.mk.injEq, Fin.ext_iff]; omega
  · simp only [reduceCtorEq, false_iff]; omega

theorem screenPoint?_eq_none {x y : Int} :
    screenPoint? x y = none ↔ ¬ ((0 ≤ x ∧ x ≤ 255) ∧ (0 ≤ y ∧ y ≤ 191)) := by
  unfold screenPoint?; split <;> simp_all

@[simp] theorem screenPoint?_natCast (px : Fin 256) (py : Fin 192) :
    screenPoint? (px.val : Int) (py.val : Int) = some (px, py) :=
  screenPoint?_eq_some.2 ⟨rfl, rfl⟩

theorem onScreen_eq_true {x y : Slot} :
    onScreen x y = true ↔ ∃ p, screenPoint? (sext16 x) (sext16 y) = some p := by
  rw [← Option.ne_none_iff_exists', Ne, screenPoint?_eq_none, not_not]
  simp [onScreen, sext16, and_assoc]

theorem onScreen_eq_false {x y : Slot} :
    onScreen x y = false ↔ screenPoint? (sext16 x) (sext16 y) = none := by
  rw [screenPoint?_eq_none, ← Bool.not_eq_true]
  simp [onScreen, sext16, and_assoc]

theorem gridCell?_eq_some {col row : Int} {c : Fin 32} {r : Fin 24} :
    gridCell? col row = some (c, r) ↔ col = (c.val : Int) ∧ row = (r.val : Int) := by
  unfold gridCell?
  split
  · simp only [Option.some.injEq, Prod.mk.injEq, Fin.ext_iff]; omega
  · simp only [reduceCtorEq, false_iff]; omega

theorem gridCell?_eq_none {col row : Int} :
    gridCell? col row = none ↔ ¬ ((0 ≤ col ∧ col ≤ 31) ∧ (0 ≤ row ∧ row ≤ 23)) := by
  unfold gridCell?; split <;> simp_all

theorem inGrid_eq_true {col row : Slot} :
    inGrid col row = true ↔ ∃ p, gridCell? (sext16 col) (sext16 row) = some p := by
  rw [← Option.ne_none_iff_exists', Ne, gridCell?_eq_none, not_not]
  simp [inGrid, sext16, and_assoc]

theorem inGrid_eq_false {col row : Slot} :
    inGrid col row = false ↔ gridCell? (sext16 col) (sext16 row) = none := by
  rw [gridCell?_eq_none, ← Bool.not_eq_true]
  simp [inGrid, sext16, and_assoc]

/-! ## Translator -/

theorem scrAddr_val (x : Fin 256) (y : Fin 192) :
    (scrAddr x y).val = 2048 * (y.val / 64) + 256 * (y.val % 8) + 32 * (y.val / 8 % 8) + x.val / 8 :=
  scrAddrFormula_eq x.isLt (by omega)

theorem scrAddr_lt (x : Fin 256) (y : Fin 192) : (scrAddr x y).val < 6144 := by
  rw [scrAddr_val]; omega

theorem scrAddr_eq_iff {x x' : Fin 256} {y y' : Fin 192} :
    scrAddr x y = scrAddr x' y' ↔ x.val / 8 = x'.val / 8 ∧ y = y' := by
  rw [Fin.ext_iff, scrAddr_val, scrAddr_val, Fin.ext_iff]; omega

theorem attrAddr_val (c : Fin 32) (r : Fin 24) : (attrAddr c r).val = 6144 + r.val * 32 + c.val := rfl

theorem attrAddr_ge (c : Fin 32) (r : Fin 24) : 6144 ≤ (attrAddr c r).val := by
  rw [attrAddr_val]; omega

theorem attrAddr_ne_scrAddr (c : Fin 32) (r : Fin 24) (x : Fin 256) (y : Fin 192) :
    attrAddr c r ≠ scrAddr x y := by
  have h1 := attrAddr_ge c r
  have h2 := scrAddr_lt x y
  intro h; rw [h] at h1; omega

/-! ## Pixels -/

/-- The mask has exactly the pixel's bit (rules R45, R84). -/
theorem mask_getLsbD (x : Fin 256) (k : Nat) : (mask x).getLsbD k = decide (k = 7 - x.val % 8) := by
  have h7 : x.val &&& 7 = x.val % 8 := Nat.and_two_pow_sub_one_eq_mod x.val 3
  rw [mask, h7]
  by_cases hk : k < 8
  · have : ∀ (r : Fin 8) (j : Fin 8), (0x80#8 >>> r.val).getLsbD j.val = decide (j.val = 7 - r.val) := by decide
    exact this ⟨x.val % 8, by omega⟩ ⟨k, hk⟩
  · rw [BitVec.getLsbD_of_ge _ _ (by omega)]
    symm; rw [decide_eq_false_iff_not]; omega

theorem plot_eq (m : Memory) (px : Fin 256) (py : Fin 192) :
    plot m px.val py.val = m.write (scrAddr px py) (m.read (scrAddr px py) ||| mask px) := by
  simp [plot]

theorem plot_off {m : Memory} {x y : Int} (h : screenPoint? x y = none) : plot m x y = m := by
  simp [plot, h]

theorem unplot_eq (m : Memory) (px : Fin 256) (py : Fin 192) :
    unplot m px.val py.val = m.write (scrAddr px py) (m.read (scrAddr px py) &&& (~~~ mask px &&& 0xFF#8)) := by
  simp [unplot]

theorem unplot_off {m : Memory} {x y : Int} (h : screenPoint? x y = none) : unplot m x y = m := by
  simp [unplot, h]

theorem pixelAt_off {m : Memory} {x y : Int} (h : screenPoint? x y = none) : pixelAt m x y = 0 := by
  simp [pixelAt, h]

/-- A byte meets a mask exactly when it has the pixel's bit. -/
theorem and_mask_ne_zero (b : Byte) (x : Fin 256) : b &&& mask x ≠ 0#8 ↔ b.getLsbD (7 - x.val % 8) = true := by
  constructor
  · intro h
    by_contra hb
    refine h (BitVec.eq_of_getLsbD_eq fun k _ => ?_)
    rw [BitVec.getLsbD_and, mask_getLsbD]
    by_cases hk : k = 7 - x.val % 8
    · subst hk; simp [Bool.not_eq_true _ ▸ hb]
    · simp [hk]
  · intro h h0
    have := congrArg (fun v : Byte => v.getLsbD (7 - x.val % 8)) h0
    simp [BitVec.getLsbD_and, mask_getLsbD, h] at this

theorem pixelAt_eq (m : Memory) (px : Fin 256) (py : Fin 192) :
    pixelAt m px.val py.val = if (m.read (scrAddr px py)).getLsbD (7 - px.val % 8) then 1 else 0 := by
  simp only [pixelAt, screenPoint?_natCast, and_mask_ne_zero]

theorem wf_plot {m : Memory} (h : m.wf) (x y : Int) : (plot m x y).wf := by
  unfold plot; split
  · exact Memory.wf_write h _ _
  · exact h

theorem wf_unplot {m : Memory} (h : m.wf) (x y : Int) : (unplot m x y).wf := by
  unfold unplot; split
  · exact Memory.wf_write h _ _
  · exact h

/-- One bit of VRAM after a plot: set when it holds the pixel, as before otherwise. -/
theorem read_plot_getLsbD (m : Memory) (px : Fin 256) (py : Fin 192) (o : Offset) (k : Nat) :
    ((plot m px.val py.val).read o).getLsbD k =
      ((m.read o).getLsbD k || decide (o = scrAddr px py ∧ k = 7 - px.val % 8)) := by
  rw [plot_eq, Memory.read_write]
  split
  · subst_vars; simp [BitVec.getLsbD_or, mask_getLsbD]
  · simp_all

/-- One bit of VRAM after an unplot: clear when it holds the pixel, as before otherwise. -/
theorem read_unplot_getLsbD (m : Memory) (px : Fin 256) (py : Fin 192) (o : Offset) (k : Nat) :
    ((unplot m px.val py.val).read o).getLsbD k =
      ((m.read o).getLsbD k && !decide (o = scrAddr px py ∧ k = 7 - px.val % 8)) := by
  rw [unplot_eq, Memory.read_write]
  split
  · subst_vars
    by_cases hk : k < 8
    · have hff : (0xFF#8).getLsbD k = true := by
        have : ∀ j : Fin 8, (0xFF#8).getLsbD j.val = true := by decide
        exact this ⟨k, hk⟩
      simp only [BitVec.getLsbD_and, BitVec.getLsbD_not, mask_getLsbD, hff, hk, decide_true, Bool.true_and,
        Bool.and_true, true_and]
    · simp [BitVec.getLsbD_of_ge _ _ (Nat.le_of_not_lt hk)]
  · simp_all

/-! ## Narrowing and results -/

theorem sext16_range (s : Slot) : -32768 ≤ sext16 s ∧ sext16 s ≤ 32767 := by
  unfold sext16
  have h1 := BitVec.le_toInt s
  have h2 := BitVec.toInt_lt (x := s)
  norm_num at h1 h2; omega

theorem sext8_range (s : Slot) : -128 ≤ sext8 s ∧ sext8 s ≤ 127 := by
  unfold sext8
  generalize s.setWidth 8 = b
  have h1 := BitVec.le_toInt b
  have h2 := BitVec.toInt_lt (x := b)
  norm_num at h1 h2; omega

theorem sat8_range (v : Int) : -128 ≤ sat8 v ∧ sat8 v ≤ 127 := by
  unfold sat8; omega

/-- `sext_8` of a slot in the words of rule R10. -/
theorem sext8_eq (s : Slot) :
    sext8 s = if s.toInt % 256 ≥ 128 then s.toInt % 256 - 256 else s.toInt % 256 := by
  have h : s.toInt % 256 = (s.toNat % 256 : Nat) := by
    rw [BitVec.toInt_eq_toNat_cond]; split <;> omega
  rw [h, sext8, BitVec.toInt_eq_toNat_cond, BitVec.toNat_setWidth]
  norm_num; split <;> split <;> omega

theorem asr_eq (v : Int) (n : Nat) : asr v n = v / 2 ^ n := by
  unfold asr; exact Int.fdiv_eq_ediv_of_nonneg v (by positivity)

theorem fdiv_eq {a b : Int} (h : 0 ≤ b) : fdiv a b = a / b := Int.fdiv_eq_ediv_of_nonneg a h

/-- A signed result that fits its slot is what the slot holds. -/
theorem signExtended_toInt {v : Int} (h1 : -32768 ≤ v) (h2 : v ≤ 32767) : (signExtended v).toInt = v := by
  unfold signExtended
  rw [BitVec.toInt_ofInt, Int.bmod_def]; norm_num; split <;> omega

/-- An unsigned result that fits its slot is what the slot holds. -/
theorem zeroExtended_toInt {v : Nat} (h : v < 32768) : (zeroExtended v).toInt = v := by
  unfold zeroExtended
  rw [BitVec.toInt_eq_toNat_cond, BitVec.toNat_ofNat]; norm_num; omega

theorem zeroExtended_toNat {v : Nat} (h : v < 65536) : (zeroExtended v).toNat = v := by
  unfold zeroExtended; rw [BitVec.toNat_ofNat]; norm_num; omega

theorem sinOf_range (s : State) (a : Byte) : -128 ≤ s.sinOf a ∧ s.sinOf a ≤ 127 := by
  unfold State.sinOf
  have h1 := BitVec.le_toInt (s.sine[a.toNat]'a.isLt)
  have h2 := BitVec.toInt_lt (x := s.sine[a.toNat]'a.isLt)
  norm_num at h1 h2; omega

end Sys2Proof.Machine
end

