-- ==== Sys2Proof/Laws/State.lean ====
section
/-! SUPPORT. One lemma per field per named update of the state, so that no later proof unfolds a record update. -/

namespace Sys2Proof.Machine

@[simp] theorem State.withVram_vram (s : State) (m : Memory) :
    (s.withVram m).vram = m := rfl
@[simp] theorem State.withVram_frame (s : State) (m : Memory) :
    (s.withVram m).frame = s.frame := rfl
@[simp] theorem State.withVram_sine (s : State) (m : Memory) :
    (s.withVram m).sine = s.sine := rfl
@[simp] theorem State.withVram_palette (s : State) (m : Memory) :
    (s.withVram m).palette = s.palette := rfl
@[simp] theorem State.withVram_commands (s : State) (m : Memory) :
    (s.withVram m).commands = s.commands := rfl
@[simp] theorem State.withVram_responses (s : State) (m : Memory) :
    (s.withVram m).responses = s.responses := rfl
@[simp] theorem State.withVram_frames (s : State) (m : Memory) :
    (s.withVram m).frames = s.frames := rfl

@[simp] theorem State.withCommands_vram (s : State) (ws : List CommandWord) :
    (s.withCommands ws).vram = s.vram := rfl
@[simp] theorem State.withCommands_frame (s : State) (ws : List CommandWord) :
    (s.withCommands ws).frame = s.frame := rfl
@[simp] theorem State.withCommands_sine (s : State) (ws : List CommandWord) :
    (s.withCommands ws).sine = s.sine := rfl
@[simp] theorem State.withCommands_palette (s : State) (ws : List CommandWord) :
    (s.withCommands ws).palette = s.palette := rfl
@[simp] theorem State.withCommands_commands (s : State) (ws : List CommandWord) :
    (s.withCommands ws).commands = ws := rfl
@[simp] theorem State.withCommands_responses (s : State) (ws : List CommandWord) :
    (s.withCommands ws).responses = s.responses := rfl
@[simp] theorem State.withCommands_frames (s : State) (ws : List CommandWord) :
    (s.withCommands ws).frames = s.frames := rfl

@[simp] theorem State.answer_vram (s : State) (r : Response) :
    (s.answer r).vram = s.vram := rfl
@[simp] theorem State.answer_frame (s : State) (r : Response) :
    (s.answer r).frame = s.frame := rfl
@[simp] theorem State.answer_sine (s : State) (r : Response) :
    (s.answer r).sine = s.sine := rfl
@[simp] theorem State.answer_palette (s : State) (r : Response) :
    (s.answer r).palette = s.palette := rfl
@[simp] theorem State.answer_commands (s : State) (r : Response) :
    (s.answer r).commands = s.commands := rfl
@[simp] theorem State.answer_responses (s : State) (r : Response) :
    (s.answer r).responses = s.responses ++ [r] := rfl
@[simp] theorem State.answer_frames (s : State) (r : Response) :
    (s.answer r).frames = s.frames := rfl

@[simp] theorem State.emit_vram (s : State) (f : Frame) :
    (s.emit f).vram = s.vram := rfl
@[simp] theorem State.emit_frame (s : State) (f : Frame) :
    (s.emit f).frame = s.frame := rfl
@[simp] theorem State.emit_sine (s : State) (f : Frame) :
    (s.emit f).sine = s.sine := rfl
@[simp] theorem State.emit_palette (s : State) (f : Frame) :
    (s.emit f).palette = s.palette := rfl
@[simp] theorem State.emit_commands (s : State) (f : Frame) :
    (s.emit f).commands = s.commands := rfl
@[simp] theorem State.emit_responses (s : State) (f : Frame) :
    (s.emit f).responses = s.responses := rfl
@[simp] theorem State.emit_frames (s : State) (f : Frame) :
    (s.emit f).frames = s.frames ++ [f] := rfl

@[simp] theorem State.advanceFrame_vram (s : State) :
    s.advanceFrame.vram = s.vram := rfl
@[simp] theorem State.advanceFrame_frame (s : State) :
    s.advanceFrame.frame = s.frame + 1 := rfl
@[simp] theorem State.advanceFrame_sine (s : State) :
    s.advanceFrame.sine = s.sine := rfl
@[simp] theorem State.advanceFrame_palette (s : State) :
    s.advanceFrame.palette = s.palette := rfl
@[simp] theorem State.advanceFrame_commands (s : State) :
    s.advanceFrame.commands = s.commands := rfl
@[simp] theorem State.advanceFrame_responses (s : State) :
    s.advanceFrame.responses = s.responses := rfl
@[simp] theorem State.advanceFrame_frames (s : State) :
    s.advanceFrame.frames = s.frames := rfl

@[simp] theorem State.withFetchWord_vram (s : State) (nbits w : Nat) :
    (s.withFetchWord nbits w).vram = s.vram := rfl
@[simp] theorem State.withFetchWord_frame (s : State) (nbits w : Nat) :
    (s.withFetchWord nbits w).frame = s.frame := rfl
@[simp] theorem State.withFetchWord_sine (s : State) (nbits w : Nat) :
    (s.withFetchWord nbits w).sine = s.sine := rfl
@[simp] theorem State.withFetchWord_palette (s : State) (nbits w : Nat) :
    (s.withFetchWord nbits w).palette = s.palette := rfl
@[simp] theorem State.withFetchWord_commands (s : State) (nbits w : Nat) :
    (s.withFetchWord nbits w).commands = BitVec.ofNat 104 (w % 2 ^ nbits) :: s.commands := rfl
@[simp] theorem State.withFetchWord_responses (s : State) (nbits w : Nat) :
    (s.withFetchWord nbits w).responses = s.responses := rfl
@[simp] theorem State.withFetchWord_frames (s : State) (nbits w : Nat) :
    (s.withFetchWord nbits w).frames = s.frames := rfl

@[simp] theorem State.reset_vram : State.reset.vram = [] := rfl
@[simp] theorem State.reset_frame : State.reset.frame = 0 := rfl
@[simp] theorem State.reset_sine : State.reset.sine = sineTable := rfl
@[simp] theorem State.reset_palette : State.reset.palette = paletteTable := rfl
@[simp] theorem State.reset_commands : State.reset.commands = [] := rfl
@[simp] theorem State.reset_responses : State.reset.responses = [] := rfl
@[simp] theorem State.reset_frames : State.reset.frames = [] := rfl

/-- Two states with equal fields are equal. -/
theorem State.ext_fields {s t : State} (hv : s.vram = t.vram) (hf : s.frame = t.frame) (hs : s.sine = t.sine)
    (hp : s.palette = t.palette) (hc : s.commands = t.commands) (hr : s.responses = t.responses)
    (hfr : s.frames = t.frames) : s = t := by
  cases s; cases t; simp_all

/-- The sine look-up reads the sine ROM only. -/
theorem State.sinOf_congr {s t : State} (h : s.sine = t.sine) (a : Byte) : s.sinOf a = t.sinOf a := by
  unfold State.sinOf; rw [h]

theorem State.cosOf_congr {s t : State} (h : s.sine = t.sine) (a : Byte) : s.cosOf a = t.cosOf a :=
  State.sinOf_congr h _

end Sys2Proof.Machine
end

