-- ==== Sys2Proof/Laws/Exec.lean ====
section
/-! SUPPORT. What each arm of `exec` is, as one equation, and that the point lists keep VRAM canonical. -/

namespace Sys2Proof.Machine

theorem respond_eq (s : State) (r : Response) : respond s r = .next (s.answer r) := rfl

theorem refuse_eq (r : Refusal) : refuse r = .refused r := rfl

section
variable (s : State)

theorem exec_scraddr_on {x y : Slot} {px : Fin 256} {py : Fin 192}
    (h : screenPoint? (sext16 x) (sext16 y) = some (px, py)) :
    exec (.scraddr x y) s = .next (s.answer (.value (zeroExtended (scrAddr px py).val))) := by
  simp [exec, execScraddr, h, respond_eq]

theorem exec_scraddr_off {x y : Slot} (h : screenPoint? (sext16 x) (sext16 y) = none) :
    exec (.scraddr x y) s = .refused (.scraddrOutsideScreen x y) := by
  simp [exec, execScraddr, h, refuse_eq]

theorem exec_attraddr_in {col row : Slot} {c : Fin 32} {r : Fin 24}
    (h : gridCell? (sext16 col) (sext16 row) = some (c, r)) :
    exec (.attraddr col row) s = .next (s.answer (.value (zeroExtended (attrAddr c r).val))) := by
  simp [exec, execAttraddr, h, respond_eq]

theorem exec_attraddr_out {col row : Slot} (h : gridCell? (sext16 col) (sext16 row) = none) :
    exec (.attraddr col row) s = .refused (.attraddrOutsideGrid col row) := by
  simp [exec, execAttraddr, h, refuse_eq]

theorem exec_setpixel (x y : Slot) : exec (.setpixel x y) s =
    .next ((s.withVram (plot s.vram (sext16 x) (sext16 y))).answer .done) := rfl

theorem exec_clrpixel (x y : Slot) : exec (.clrpixel x y) s =
    .next ((s.withVram (unplot s.vram (sext16 x) (sext16 y))).answer .done) := rfl

theorem exec_getpixel (x y : Slot) : exec (.getpixel x y) s =
    .next (s.answer (.value (zeroExtended (pixelAt s.vram (sext16 x) (sext16 y))))) := rfl

theorem exec_setattr_in {col row : Slot} (value : Slot) {c : Fin 32} {r : Fin 24}
    (h : gridCell? (sext16 col) (sext16 row) = some (c, r)) : exec (.setattr col row value) s =
    .next ((s.withVram (s.vram.write (attrAddr c r) (zext8 value))).answer .done) := by
  simp [exec, execSetattr, h, respond_eq]

theorem exec_setattr_out {col row : Slot} (value : Slot) (h : gridCell? (sext16 col) (sext16 row) = none) :
    exec (.setattr col row value) s = .refused (.setattrOutsideGrid col row) := by
  simp [exec, execSetattr, h, refuse_eq]

theorem exec_getattr_in {col row : Slot} {c : Fin 32} {r : Fin 24}
    (h : gridCell? (sext16 col) (sext16 row) = some (c, r)) : exec (.getattr col row) s =
    .next (s.answer (.value (zeroExtended (s.vram.read (attrAddr c r)).toNat))) := by
  simp [exec, execGetattr, h, respond_eq]

theorem exec_getattr_out {col row : Slot} (h : gridCell? (sext16 col) (sext16 row) = none) :
    exec (.getattr col row) s = .refused (.getattrOutsideGrid col row) := by
  simp [exec, execGetattr, h, refuse_eq]

theorem exec_makeattr (ink paper bright flash : Slot) : exec (.makeattr ink paper bright flash) s =
    .next (s.answer (.value (zeroExtended
      (packAttr ⟨zext3 ink, zext3 paper, boolOf bright, boolOf flash⟩).toNat))) := rfl

theorem exec_cls : exec .cls s = .next ((s.withVram (s.vram.fill 0 Config.vramSize 0)).answer .done) := rfl

theorem exec_fillattr (value : Slot) : exec (.fillattr value) s =
    .next ((s.withVram (s.vram.fill Config.attrBase Config.attrSize (zext8 value))).answer .done) := rfl

theorem exec_render : exec .render s =
    .next ((s.emit (renderFrame s.vram s.palette (flashPhase s.frame))).advanceFrame.answer .done) := rfl

theorem exec_drawline (x0 y0 x1 y1 : Slot) : exec (.drawline x0 y0 x1 y1) s =
    .next ((s.withVram (plotAll s.vram (linePoints (sext16 x0) (sext16 y0) (sext16 x1) (sext16 y1)))).answer
      .done) := rfl

theorem exec_smul8 (a b : Slot) : exec (.smul8 a b) s =
    .next (s.answer (.value (signExtended (sext8 a * sext8 b)))) := rfl

theorem exec_sin (angle : Slot) : exec (.sin angle) s =
    .next (s.answer (.value (signExtended (s.sinOf (zext8 angle))))) := rfl

theorem exec_cos (angle : Slot) : exec (.cos angle) s =
    .next (s.answer (.value (signExtended (s.cosOf (zext8 angle))))) := rfl

theorem exec_rotpair (a b sv cv : Slot) : exec (.rotpair a b sv cv) s =
    .next (s.answer (.pair (signExtended (rot (sext8 a) (sext8 b) (sext8 sv) (sext8 cv)).1)
      (signExtended (rot (sext8 a) (sext8 b) (sext8 sv) (sext8 cv)).2))) := rfl

theorem exec_rotxyz (x y z ax ay az : Slot) : exec (.rotxyz x y z ax ay az) s =
    .next (s.answer (.triple
      (signExtended (rotXYZ s (sext8 x) (sext8 y) (sext8 z) (zext8 ax) (zext8 ay) (zext8 az)).1)
      (signExtended (rotXYZ s (sext8 x) (sext8 y) (sext8 z) (zext8 ax) (zext8 ay) (zext8 az)).2.1)
      (signExtended (rotXYZ s (sext8 x) (sext8 y) (sext8 z) (zext8 ax) (zext8 ay) (zext8 az)).2.2))) := rfl

theorem exec_project_fails {x y z vd : Slot} (h : sext16 z + sext16 vd ≤ 0) :
    exec (.project x y z vd) s = .next (s.answer .noProjection) := by
  simp [exec, execProject, h, respond_eq]

theorem exec_project {x y z vd : Slot} (h : 0 < sext16 z + sext16 vd) : exec (.project x y z vd) s =
    .next (s.answer (.pair
      (zeroExtended (projectCoordinate 128 (sext8 x) (projectScale (sext16 vd) (sext16 z + sext16 vd))).toNat)
      (zeroExtended (projectCoordinate 96 (sext8 y) (projectScale (sext16 vd) (sext16 z + sext16 vd))).toNat))) := by
  simp [exec, execProject, not_le.2 h, respond_eq]

end

/-! ## Everything an operation can do -/

/-- If an operation answers a next state, then it only returned a response, or it is one of the six operations that write VRAM or
RENDER, with exactly the effect of its rule (rule R35). -/
theorem exec_next_cases {i : Instr} {s t : State} (h : exec i s = .next t) :
    (∃ r, t = s.answer r) ∨
    (∃ x y, i = .setpixel x y ∧ t = (s.withVram (plot s.vram (sext16 x) (sext16 y))).answer .done) ∨
    (∃ x y, i = .clrpixel x y ∧ t = (s.withVram (unplot s.vram (sext16 x) (sext16 y))).answer .done) ∨
    (∃ col row value c r, i = .setattr col row value ∧ gridCell? (sext16 col) (sext16 row) = some (c, r) ∧
      t = (s.withVram (s.vram.write (attrAddr c r) (zext8 value))).answer .done) ∨
    (i = .cls ∧ t = (s.withVram (s.vram.fill 0 Config.vramSize 0)).answer .done) ∨
    (∃ value, i = .fillattr value ∧
      t = (s.withVram (s.vram.fill Config.attrBase Config.attrSize (zext8 value))).answer .done) ∨
    (∃ x0 y0 x1 y1, i = .drawline x0 y0 x1 y1 ∧ t = (s.withVram (plotAll s.vram
      (linePoints (sext16 x0) (sext16 y0) (sext16 x1) (sext16 y1)))).answer .done) ∨
    (i = .render ∧
      t = (s.emit (renderFrame s.vram s.palette (flashPhase s.frame))).advanceFrame.answer .done) := by
  have answered {r : Response} (h : Host.Outcome.next (s.answer r) = (.next t : Host.Outcome State Fault Refusal)) :
      ∃ r, t = s.answer r := ⟨r, (Host.Outcome.next.inj h).symm⟩
  cases i with
  | scraddr x y =>
    cases hp : screenPoint? (sext16 x) (sext16 y) with
    | none => rw [exec_scraddr_off s hp] at h; cases h
    | some p => rw [exec_scraddr_on s hp] at h; exact .inl (answered h)
  | attraddr col row =>
    cases hp : gridCell? (sext16 col) (sext16 row) with
    | none => rw [exec_attraddr_out s hp] at h; cases h
    | some p => rw [exec_attraddr_in s hp] at h; exact .inl (answered h)
  | setpixel x y => exact .inr (.inl ⟨x, y, rfl, (Host.Outcome.next.inj h).symm⟩)
  | clrpixel x y => exact .inr (.inr (.inl ⟨x, y, rfl, (Host.Outcome.next.inj h).symm⟩))
  | getpixel x y => exact .inl (answered h)
  | setattr col row value =>
    cases hp : gridCell? (sext16 col) (sext16 row) with
    | none => rw [exec_setattr_out s value hp] at h; cases h
    | some p =>
      rw [exec_setattr_in s value hp] at h
      exact .inr (.inr (.inr (.inl ⟨col, row, value, p.1, p.2, rfl, hp, (Host.Outcome.next.inj h).symm⟩)))
  | getattr col row =>
    cases hp : gridCell? (sext16 col) (sext16 row) with
    | none => rw [exec_getattr_out s hp] at h; cases h
    | some p => rw [exec_getattr_in s hp] at h; exact .inl (answered h)
  | makeattr _ _ _ _ => exact .inl (answered h)
  | cls => exact .inr (.inr (.inr (.inr (.inl ⟨rfl, (Host.Outcome.next.inj h).symm⟩))))
  | fillattr value =>
    exact .inr (.inr (.inr (.inr (.inr (.inl ⟨value, rfl, (Host.Outcome.next.inj h).symm⟩)))))
  | render =>
    exact .inr (.inr (.inr (.inr (.inr (.inr (.inr ⟨rfl, (Host.Outcome.next.inj h).symm⟩))))))
  | drawline x0 y0 x1 y1 =>
    exact .inr (.inr (.inr (.inr (.inr (.inr (.inl
      ⟨x0, y0, x1, y1, rfl, (Host.Outcome.next.inj h).symm⟩))))))
  | smul8 _ _ => exact .inl (answered h)
  | sin _ => exact .inl (answered h)
  | cos _ => exact .inl (answered h)
  | rotpair _ _ _ _ => exact .inl (answered h)
  | rotxyz _ _ _ _ _ _ => exact .inl (answered h)
  | project x y z vd =>
    by_cases hd : sext16 z + sext16 vd ≤ 0
    · rw [exec_project_fails s hd] at h; exact .inl (answered h)
    · rw [exec_project s (not_le.1 hd)] at h; exact .inl (answered h)

/-! ## Point lists -/

@[simp] theorem plotAll_nil (m : Memory) : plotAll m [] = m := rfl

@[simp] theorem plotAll_cons (m : Memory) (p : Int × Int) (ps : List (Int × Int)) :
    plotAll m (p :: ps) = plotAll (plot m p.1 p.2) ps := rfl

theorem wf_plotAll {m : Memory} (h : m.wf) (ps : List (Int × Int)) : (plotAll m ps).wf := by
  induction ps generalizing m with
  | nil => exact h
  | cons p ps ih => exact ih (wf_plot h p.1 p.2)

@[simp] theorem horizontalPoints_length (dx dy sy : Int) (n : Nat) (x y err : Int) :
    (horizontalPoints dx dy sy n x y err).length = n := by
  induction n generalizing x y err with
  | zero => rfl
  | succ n ih => simp only [horizontalPoints, List.length_cons]; split <;> rw [ih]

@[simp] theorem verticalPoints_length (dx dy sy : Int) (n : Nat) (x y err : Int) :
    (verticalPoints dx dy sy n x y err).length = n := by
  induction n generalizing x y err with
  | zero => rfl
  | succ n ih => simp only [verticalPoints, List.length_cons]; split <;> rw [ih]

end Sys2Proof.Machine
end

