-- ==== Sys2Proof/Laws/PerInstr.lean ====
section
/-! SUPPORT. The family of facts proved instruction by instruction: the command word the encoder writes carries the opcode of
rule R63 in bits 7:0. -/

namespace Sys2Proof.Laws.OpcodeByte

/-- The encoder puts the operation's opcode into `OP`. -/
def Statement (i : Instr) : Prop := opcodeOf (encode i) = i.opcode

theorem scraddr (a b : Slot) : Statement (.scraddr a b) :=
  opcodeOf_packCommand _ _ _ _ _ _ _

theorem attraddr (a b : Slot) : Statement (.attraddr a b) :=
  opcodeOf_packCommand _ _ _ _ _ _ _

theorem setpixel (a b : Slot) : Statement (.setpixel a b) :=
  opcodeOf_packCommand _ _ _ _ _ _ _

theorem clrpixel (a b : Slot) : Statement (.clrpixel a b) :=
  opcodeOf_packCommand _ _ _ _ _ _ _

theorem getpixel (a b : Slot) : Statement (.getpixel a b) :=
  opcodeOf_packCommand _ _ _ _ _ _ _

theorem setattr (a b c : Slot) : Statement (.setattr a b c) :=
  opcodeOf_packCommand _ _ _ _ _ _ _

theorem getattr (a b : Slot) : Statement (.getattr a b) :=
  opcodeOf_packCommand _ _ _ _ _ _ _

theorem makeattr (a b c d : Slot) : Statement (.makeattr a b c d) :=
  opcodeOf_packCommand _ _ _ _ _ _ _

theorem cls : Statement (.cls) :=
  opcodeOf_packCommand _ _ _ _ _ _ _

theorem fillattr (a : Slot) : Statement (.fillattr a) :=
  opcodeOf_packCommand _ _ _ _ _ _ _

theorem render : Statement (.render) :=
  opcodeOf_packCommand _ _ _ _ _ _ _

theorem drawline (a b c d : Slot) : Statement (.drawline a b c d) :=
  opcodeOf_packCommand _ _ _ _ _ _ _

theorem smul8 (a b : Slot) : Statement (.smul8 a b) :=
  opcodeOf_packCommand _ _ _ _ _ _ _

theorem sin (a : Slot) : Statement (.sin a) :=
  opcodeOf_packCommand _ _ _ _ _ _ _

theorem cos (a : Slot) : Statement (.cos a) :=
  opcodeOf_packCommand _ _ _ _ _ _ _

theorem rotpair (a b c d : Slot) : Statement (.rotpair a b c d) :=
  opcodeOf_packCommand _ _ _ _ _ _ _

theorem rotxyz (a b c d e f : Slot) : Statement (.rotxyz a b c d e f) :=
  opcodeOf_packCommand _ _ _ _ _ _ _

theorem project (a b c d : Slot) : Statement (.project a b c d) :=
  opcodeOf_packCommand _ _ _ _ _ _ _

end Sys2Proof.Laws.OpcodeByte
end

