-- ==== Sys2Proof/Laws/Pixels.lean ====
section
/-! SUPPORT. The laws of rule R90 for the pixel functions `plot` (SETPIXEL, DRAWLINE), `unplot` (CLRPIXEL) and `pixelAt` (GETPIXEL) and
for the pixel translation `scrAddr`. -/

namespace Sys2Proof.Machine

section
variable (m : Memory) (px : Fin 256) (py : Fin 192)

/-- Rule R90, law 1: a plotted pixel reads 1. -/
theorem pixelAt_plot_self : pixelAt (plot m px.val py.val) px.val py.val = 1 := by
  simp [pixelAt_eq, read_plot_getLsbD]

/-- Rule R90, law 1: a cleared pixel reads 0. -/
theorem pixelAt_unplot_self : pixelAt (unplot m px.val py.val) px.val py.val = 0 := by
  simp [pixelAt_eq, read_unplot_getLsbD]

/-- Different pixels are different (offset, bit) pairs (rules R42, R45). -/
theorem pixelBit_ne {qx : Fin 256} {qy : Fin 192} (h : (qx, qy) ≠ (px, py)) :
    ¬ (scrAddr qx qy = scrAddr px py ∧ 7 - qx.val % 8 = 7 - px.val % 8) := by
  rintro ⟨ho, hk⟩
  obtain ⟨hx, rfl⟩ := scrAddr_eq_iff.1 ho
  exact h (Prod.ext (Fin.ext (by dsimp only; omega)) rfl)

/-- Rule R90, laws 1 and 2: plotting one pixel leaves every other pixel as it was. -/
theorem pixelAt_plot_other {qx : Fin 256} {qy : Fin 192} (h : (qx, qy) ≠ (px, py)) :
    pixelAt (plot m px.val py.val) qx.val qy.val = pixelAt m qx.val qy.val := by
  simp only [pixelAt_eq, read_plot_getLsbD, decide_eq_false (pixelBit_ne px py h), Bool.or_false]

/-- Rule R90, laws 1 and 2: clearing one pixel leaves every other pixel as it was. -/
theorem pixelAt_unplot_other {qx : Fin 256} {qy : Fin 192} (h : (qx, qy) ≠ (px, py)) :
    pixelAt (unplot m px.val py.val) qx.val qy.val = pixelAt m qx.val qy.val := by
  simp only [pixelAt_eq, read_unplot_getLsbD, decide_eq_false (pixelBit_ne px py h), Bool.not_false, Bool.and_true]

end

/-- The bit fields of an offset below 6144, packed as rule R42 packs them, come apart again. -/
theorem offsetFields {third line cellRow col : Nat} (hl : line < 8) (hr : cellRow < 8) (hc : col < 32) :
    (2048 * third + 256 * line + 32 * cellRow + col) % 32 = col ∧
    (2048 * third + 256 * line + 32 * cellRow + col) / 32 % 8 = cellRow ∧
    (2048 * third + 256 * line + 32 * cellRow + col) / 256 % 8 = line ∧
    (2048 * third + 256 * line + 32 * cellRow + col) / 2048 = third := by
  refine ⟨?_, ?_, ?_, ?_⟩ <;> omega

/-- Rule R90, law 3 (rule R44): the inverse of the rule gives back the byte column and the scanline. -/
theorem pixelByteOf_scrAddr (x : Fin 256) (y : Fin 192) : pixelByteOf (scrAddr x y).val = (x.val / 8, y.val) := by
  have join : ∀ y : Fin 192,
      ((y.val / 64 % 4) <<< 6) ||| ((y.val / 8 % 8) <<< 3) ||| (y.val % 8) = y.val := by decide +kernel
  obtain ⟨hcol, hrow, hline, hthird⟩ := offsetFields (third := y.val / 64) (line := y.val % 8)
    (cellRow := y.val / 8 % 8) (col := x.val / 8) (by omega) (by omega) (by omega)
  rw [pixelByteOf, scrAddr_val, hcol, hrow, hline, hthird, join]

/-- Rule R90, law 3: every offset below 6144 holds pixels. -/
theorem exists_scrAddr {o : Offset} (h : o.val < 6144) : ∃ x y, scrAddr x y = o := by
  have fields {third line cellRow : Nat} (hl : line < 8) (hr : cellRow < 8) :
      (64 * third + 8 * cellRow + line) / 64 = third ∧ (64 * third + 8 * cellRow + line) % 8 = line ∧
      (64 * third + 8 * cellRow + line) / 8 % 8 = cellRow := by
    refine ⟨?_, ?_, ?_⟩ <;> omega
  obtain ⟨hthird, hline, hrow⟩ := fields (third := o.val / 2048) (line := o.val / 256 % 8)
    (cellRow := o.val / 32 % 8) (by omega) (by omega)
  refine ⟨⟨8 * (o.val % 32), by omega⟩, ⟨64 * (o.val / 2048) + 8 * (o.val / 32 % 8) + o.val / 256 % 8, by omega⟩, ?_⟩
  apply Fin.ext
  rw [scrAddr_val]
  dsimp only
  rw [hthird, hline, hrow]
  omega

/-- Rule R90, law 4: after CLS's fill every pixel query answers 0. -/
theorem pixelAt_clear (m : Memory) (x y : Int) : pixelAt (m.fill 0 Config.vramSize 0) x y = 0 := by
  cases h : screenPoint? x y with
  | none => exact pixelAt_off h
  | some p =>
    have hr : (m.fill 0 Config.vramSize 0#8).read (scrAddr p.1 p.2) = 0#8 := by
      rw [Memory.read_fill, if_pos]
      have := (scrAddr p.1 p.2).isLt
      simp only [Config.vramSize]; omega
    simp [pixelAt, h, hr]

/-- Rule R90, law 5: no plotted point changes a byte of the attribute region. -/
theorem read_plot_attribute (m : Memory) (x y : Int) {o : Offset} (ho : 6144 ≤ o.val) : (plot m x y).read o = m.read o := by
  unfold plot; split
  · rename_i px py _
    exact Memory.read_write_other _ _ fun h => by have := scrAddr_lt px py; subst h; omega
  · rfl

/-- Rule R90, law 5: no cleared point changes a byte of the attribute region. -/
theorem read_unplot_attribute (m : Memory) (x y : Int) {o : Offset} (ho : 6144 ≤ o.val) :
    (unplot m x y).read o = m.read o := by
  unfold unplot; split
  · rename_i px py _
    exact Memory.read_write_other _ _ fun h => by have := scrAddr_lt px py; subst h; omega
  · rfl

end Sys2Proof.Machine
end

