-- ==== Sys2Proof/Laws/Run.lean ====
section
/-! SUPPORT. One step and a run of steps: what `step` does with the next command word, and how a run is built from steps. -/

namespace Sys2Proof.Machine

theorem step_idle {s : State} (h : s.commands = []) : step s = .next s := by simp [step, h]

theorem step_ok {s : State} {w : CommandWord} {rest : List CommandWord} {i : Instr}
    (hs : s.commands = w :: rest) (hw : decodeWord w = .ok i) : step s = exec i (s.withCommands rest) := by
  simp [step, hs, hw]

theorem step_reserved {s : State} {w : CommandWord} {rest : List CommandWord} {e : DecodeError}
    (hs : s.commands = w :: rest) (hw : decodeWord w = .error e) :
    step s = .refused (.reservedOpcode (opcodeOf w)) := by
  simp [step, hs, hw, refuse_eq]

/-- If a step answers a next state, then the block was idle, or the operation its next command word selects answered it. -/
theorem step_next_cases {s t : State} (h : step s = .next t) :
    (s.commands = [] ∧ t = s) ∨
    ∃ w rest i, s.commands = w :: rest ∧ decodeWord w = .ok i ∧ exec i (s.withCommands rest) = .next t := by
  cases hs : s.commands with
  | nil => rw [step_idle hs] at h; exact .inl ⟨rfl, (Host.Outcome.next.inj h).symm⟩
  | cons w rest =>
    cases hw : decodeWord w with
    | error e => rw [step_reserved hs hw] at h; cases h
    | ok i => rw [step_ok hs hw] at h; exact .inr ⟨w, rest, i, rfl, hw, h⟩

@[simp] theorem reaches_zero {s t : State} : s.Reaches 0 t ↔ t = s := by
  constructor
  · intro h; exact (Host.Outcome.next.inj h).symm
  · rintro rfl; rfl

/-- On any machine, a run of `n + 1` steps is one step and then a run of `n` steps. -/
theorem run_succ_eq_next (M : Host.Core) (n : Nat) (s t : M.State) :
    M.run (n + 1) s = .next t ↔ ∃ u, M.step s = .next u ∧ M.run n u = .next t := by
  simp only [Host.Core.run]
  cases M.step s <;> simp

/-- A run of `n + 1` steps is one step and then a run of `n` steps. -/
theorem reaches_succ {s t : State} {n : Nat} :
    s.Reaches (n + 1) t ↔ ∃ u, step s = .next u ∧ u.Reaches n t :=
  run_succ_eq_next Sys2Proof.core n s t

end Sys2Proof.Machine
end

