-- ==== Sys2Proof/Tests/Slice0.lean ====
section
/-! SUPPORT. The model's own tests. Expected values come from `95_test_vectors.md` (the row is named at each test) or from the rule
named there. The theorems named `witness_*` show a state and operands that meet the hypotheses of a statement. -/

namespace Sys2Proof.Tests

open Sys2Proof.Machine Sys2Proof.Claims

-- One theorem after another: many kernel evaluations at once would each hold a thread.
set_option Elab.async false

/-- A small state: the listed bytes of VRAM, and a value of the counter. -/
def small (m : Memory) (frame : BitVec 6 := 0) : State :=
  { State.reset with vram := m, frame := frame }

/-- The response an operation returned last. -/
def answerOf : Host.Outcome State Fault Refusal → Option Response
  | .next t => t.responses.getLast?
  | .fault _ => none
  | .refused _ => none

/-- The listed bytes of VRAM after an operation. -/
def vramOf : Host.Outcome State Fault Refusal → Option Memory
  | .next t => some t.vram
  | .fault _ => none
  | .refused _ => none

/-- Why an operation was refused. -/
def refusalOf : Host.Outcome State Fault Refusal → Option Refusal
  | .next _ => none
  | .fault _ => none
  | .refused r => some r

/-- The counter, the number of frames, and the first eight colour indices of the top scanline of the last frame. -/
def frameOf : Host.Outcome State Fault Refusal → Option (Nat × Nat × List Nat)
  | .next t =>
    t.frames.getLast?.map fun f =>
      (t.frame.toNat, t.frames.length, (f.indices[0].toList.take 8).map BitVec.toNat)
  | .fault _ => none
  | .refused _ => none

/-- The contents of a slot for an integer. -/
def slot (v : Int) : Slot := BitVec.ofInt 16 v

/-! ## Ill-formed commands (rules R81, R83, R100, R101; the refused commands listed after V15 and V30) -/

theorem test_wellFormed_refuses_scraddr_column : (Instr.scraddr 256 0).wellFormed = false := by decide
theorem test_wellFormed_refuses_scraddr_line : (Instr.scraddr 0 192).wellFormed = false := by decide
theorem test_wellFormed_refuses_attraddr_column : (Instr.attraddr 32 0).wellFormed = false := by decide
theorem test_wellFormed_refuses_attraddr_row : (Instr.attraddr 0 24).wellFormed = false := by decide
theorem test_wellFormed_refuses_setattr_column : (Instr.setattr 32 0 1).wellFormed = false := by decide
theorem test_wellFormed_refuses_setattr_row : (Instr.setattr 0 (slot (-1)) 1).wellFormed = false := by decide
theorem test_wellFormed_refuses_getattr_column : (Instr.getattr (slot (-1)) 0).wellFormed = false := by decide
theorem test_wellFormed_refuses_getattr_row : (Instr.getattr 0 24).wellFormed = false := by decide
theorem test_wellFormed_accepts_corners : (Instr.scraddr 255 191).wellFormed = true ∧
    (Instr.attraddr 31 23).wellFormed = true ∧ (Instr.setattr 31 23 7).wellFormed = true ∧
    (Instr.getattr 31 23).wellFormed = true := by decide

/-! ## Decoding: a command of each operation, its 13 bytes as the vectors print them -/

/-- V4. -/
theorem test_decode_scraddr : decode [0x10, 0xFF, 0x00, 0xBF, 0, 0, 0, 0, 0, 0, 0, 0, 0] =
    .ok (.scraddr 255 191, []) := by decide +kernel
/-- V6. -/
theorem test_decode_attraddr : decode [0x11, 0x0C, 0x00, 0x0C, 0, 0, 0, 0, 0, 0, 0, 0, 0] =
    .ok (.attraddr 12 12, []) := by decide +kernel
/-- V11. -/
theorem test_decode_setpixel : decode [0x12, 0xFF, 0xFF, 0x05, 0, 0, 0, 0, 0, 0, 0, 0, 0] =
    .ok (.setpixel (slot (-1)) 5, []) := by decide +kernel
/-- V12. -/
theorem test_decode_clrpixel : decode [0x13, 0x09, 0x00, 0x01, 0, 0, 0, 0, 0, 0, 0, 0, 0] =
    .ok (.clrpixel 9 1, []) := by decide +kernel
/-- V15, with a byte after the command. -/
theorem test_decode_getpixel : decode [0x14, 0x2C, 0x01, 0x01, 0, 0, 0, 0, 0, 0, 0, 0, 0, 0x23] =
    .ok (.getpixel 300 1, [0x23]) := by decide +kernel
/-- V17. -/
theorem test_decode_setattr : decode [0x20, 0x1F, 0x00, 0x17, 0x00, 0x07, 0, 0, 0, 0, 0, 0, 0] =
    .ok (.setattr 31 23 7, []) := by decide +kernel
/-- V21. -/
theorem test_decode_getattr : decode [0x21, 0x1F, 0x00, 0x17, 0, 0, 0, 0, 0, 0, 0, 0, 0] =
    .ok (.getattr 31 23, []) := by decide +kernel
/-- V25. -/
theorem test_decode_makeattr : decode [0x22, 0x02, 0x00, 0x05, 0x00, 0x01, 0, 0, 0, 0, 0, 0, 0] =
    .ok (.makeattr 2 5 1 0, []) := by decide +kernel
/-- V28. -/
theorem test_decode_cls : decode [0x23, 0, 0, 0, 0, 0, 0, 0, 0, 0, 0, 0, 0] = .ok (.cls, []) := by decide +kernel
/-- V30. -/
theorem test_decode_fillattr : decode [0x24, 0x38, 0x01, 0, 0, 0, 0, 0, 0, 0, 0, 0, 0] =
    .ok (.fillattr 0x138, []) := by decide +kernel
/-- V31. -/
theorem test_decode_render : decode [0x30, 0, 0, 0, 0, 0, 0, 0, 0, 0, 0, 0, 0] = .ok (.render, []) := by decide +kernel
/-- V58. -/
theorem test_decode_drawline : decode [0x40, 0x0A, 0x00, 0x0A, 0x00, 0x04, 0x00, 0x0C, 0x00, 0, 0, 0, 0] =
    .ok (.drawline 10 10 4 12, []) := by decide +kernel
/-- V62. -/
theorem test_decode_smul8 : decode [0x50, 0xFF, 0x01, 0x02, 0, 0, 0, 0, 0, 0, 0, 0, 0] =
    .ok (.smul8 0x1FF 2, []) := by decide +kernel
/-- V71. -/
theorem test_decode_sin : decode [0x51, 0x40, 0x01, 0, 0, 0, 0, 0, 0, 0, 0, 0, 0] = .ok (.sin 320, []) := by decide +kernel
/-- V76. -/
theorem test_decode_cos : decode [0x52, 0xFF, 0x00, 0, 0, 0, 0, 0, 0, 0, 0, 0, 0] = .ok (.cos 255, []) := by decide +kernel
/-- V85. -/
theorem test_decode_rotpair : decode [0x53, 0x7F, 0x00, 0x7F, 0x00, 0xA6, 0xFF, 0x5A, 0, 0, 0, 0, 0] =
    .ok (.rotpair 127 127 (slot (-90)) 90, []) := by decide +kernel
/-- V95. -/
theorem test_decode_rotxyz :
    decode [0x54, 0x32, 0x00, 0x3C, 0x00, 0x46, 0x00, 0x0A, 0x01, 0xEC, 0xFF, 0x2C, 0x01] =
    .ok (.rotxyz 50 60 70 266 (slot (-20)) 300, []) := by decide +kernel
/-- V106. -/
theorem test_decode_project : decode [0x55, 0x64, 0x00, 0x5A, 0x00, 0x39, 0x63, 0xC8, 0x00, 0, 0, 0, 0] =
    .ok (.project 100 90 25401 200, []) := by decide +kernel

/-- Rule R66: the ends of the reserved ranges. -/
theorem test_decode_refuses_reserved :
    ([0x00, 0x0F, 0x15, 0x1F, 0x25, 0x2F, 0x31, 0x3F, 0x41, 0x4F, 0x56, 0xFF] : List Byte).all (fun op =>
      decode [op, 0, 0, 0, 0, 0, 0, 0, 0, 0, 0, 0, 0] = .error (.reservedOpcode op)) = true := by decide +kernel

/-- Rule R68: a command word is 13 bytes. -/
theorem test_decode_refuses_twelve_bytes :
    decode [0x23, 0, 0, 0, 0, 0, 0, 0, 0, 0, 0, 0] = .error (.truncated 12) := by decide +kernel

/-- Table words numbered as rule R61 numbers the bits: SETPIXEL with `A = 1`, `B = 256`; CLS given by its 8 bits; a reserved
opcode. -/
theorem test_decodeTableWord : decodeTableWord 104 0x0100000112 = some (.setpixel 1 0x100) ∧
    decodeTableWord 8 0x23 = some .cls ∧ decodeTableWord 104 0 = none := by decide +kernel

/-- Rules R69, R70: one line of the notation of each kind, and lines that stand for no command. -/
theorem test_assemble :
    assembleLine "PROJECT 35, 105, 100 ; pseudo-form".toList = .ok (some (.project 35 105 100 200)) ∧
    assembleLine "SETATTR 1, 2, -1".toList = .ok (some (.setattr 1 2 0xFFFF)) ∧
    assembleLine "SMUL8 0x80, 0xFF80".toList = .ok (some (.smul8 0x80 0xFF80)) ∧
    assembleLine "  CLS".toList = .ok (some .cls) ∧ assembleLine "; nothing".toList = .ok none ∧
    assembleLine "SIN 65536".toList = .error .badOperand ∧ assembleLine "SIN".toList = .error .operandCount ∧
    assembleLine "NOP".toList = .error .unknownMnemonic := by decide +kernel

/-! ## Translator and pixel logic -/

/-- V2, V3, V5. -/
theorem test_scraddr_values :
    answerOf (exec (.scraddr 0 1) State.reset) = some (.value 256) ∧
    answerOf (exec (.scraddr 0 8) State.reset) = some (.value 32) ∧
    answerOf (exec (.scraddr 100 100) State.reset) = some (.value 3212) := by decide +kernel
/-- The refused commands after V15. -/
theorem test_scraddr_outside :
    refusalOf (exec (.scraddr 0 192) State.reset) = some (.scraddrOutsideScreen 0 192) ∧
    refusalOf (exec (.scraddr 256 0) State.reset) = some (.scraddrOutsideScreen 256 0) := by decide +kernel
/-- V6. -/
theorem test_attraddr_value : answerOf (exec (.attraddr 12 12) State.reset) = some (.value 6540) := by decide +kernel
/-- The refused commands after V15. -/
theorem test_attraddr_outside :
    refusalOf (exec (.attraddr 32 0) State.reset) = some (.attraddrOutsideGrid 32 0) ∧
    refusalOf (exec (.attraddr 0 24) State.reset) = some (.attraddrOutsideGrid 0 24) := by decide +kernel
/-- V7, V8. -/
theorem test_setpixel_bits :
    vramOf (exec (.setpixel 9 1) (small [(256, 0), (257, 0)])) = some [(256, 0), (257, 0x40)] ∧
    vramOf (exec (.setpixel 255 191) (small [(6143, 0)])) = some [(6143, 1)] := by decide +kernel
/-- V9, V10, V11: ignored, with `V = 1`. -/
theorem test_setpixel_outside :
    vramOf (exec (.setpixel 256 0) (small [(0, 0)])) = some [(0, 0)] ∧
    vramOf (exec (.setpixel 0 192) (small [(0, 0)])) = some [(0, 0)] ∧
    vramOf (exec (.setpixel (slot (-1)) 5) (small [(0, 0)])) = some [(0, 0)] ∧
    answerOf (exec (.setpixel (slot (-1)) 5) (small [])) = some .done := by decide +kernel
/-- V12. -/
theorem test_clrpixel_bit :
    vramOf (exec (.clrpixel 9 1) (small [(257, 0x60)])) = some [(257, 0x20)] := by decide +kernel
/-- Rule R88: off the screen nothing changes. -/
theorem test_clrpixel_outside :
    vramOf (exec (.clrpixel 256 1) (small [(257, 0xFF)])) = some [(257, 0xFF)] := by decide +kernel
/-- V13, V14, V15. -/
theorem test_getpixel_values :
    answerOf (exec (.getpixel 9 1) (small [(257, 0x40)])) = some (.value 1) ∧
    answerOf (exec (.getpixel 8 1) (small [(257, 0x40)])) = some (.value 0) ∧
    answerOf (exec (.getpixel 300 1) (small [(257, 0x40)])) = some (.value 0) := by decide +kernel

/-! ## Attribute grid and fills -/

/-- V17, V18. -/
theorem test_setattr_bytes :
    vramOf (exec (.setattr 31 23 7) (small [(0, 5)])) = some [(0, 5), (6911, 7)] ∧
    vramOf (exec (.setattr 1 2 0x1FF) (small [(6209, 0)])) = some [(6209, 0xFF)] := by decide +kernel
/-- The refused commands after V30. -/
theorem test_setattr_outside :
    refusalOf (exec (.setattr 32 0 1) State.reset) = some (.setattrOutsideGrid 32 0) ∧
    refusalOf (exec (.setattr 0 24 1) State.reset) = some (.setattrOutsideGrid 0 24) ∧
    refusalOf (exec (.setattr 0 0xFFFF 1) State.reset) = some (.setattrOutsideGrid 0 0xFFFF) := by decide +kernel
/-- V20. -/
theorem test_getattr_value :
    answerOf (exec (.getattr 0 0) (small [(6144, 0xB9)])) = some (.value 185) := by decide +kernel
/-- The refused commands after V30. -/
theorem test_getattr_outside :
    refusalOf (exec (.getattr 0xFFFF 0) State.reset) = some (.getattrOutsideGrid 0xFFFF 0) := by decide +kernel
/-- V22, V23, V25. -/
theorem test_makeattr_packs :
    answerOf (exec (.makeattr 1 7 0 0) State.reset) = some (.value 0x39) ∧
    answerOf (exec (.makeattr 7 0 1 1) State.reset) = some (.value 0xC7) ∧
    answerOf (exec (.makeattr 2 5 1 0) State.reset) = some (.value 0x6A) := by decide +kernel
/-- V24, V26, V27. -/
theorem test_makeattr_narrows :
    answerOf (exec (.makeattr 9 15 0 0) State.reset) = some (.value 0x39) ∧
    answerOf (exec (.makeattr 0 0 0 2) State.reset) = some (.value 0x80) ∧
    answerOf (exec (.makeattr 0xFFFF 0 0 0) State.reset) = some (.value 0x07) := by decide +kernel
/-- V28: the first and the last byte, and the number of bytes. -/
theorem test_cls_bytes :
    (vramOf (exec .cls (small [(5, 3), (6911, 7)]))).map (fun m =>
      (m.length, m.lookup 0, m.lookup 5, m.lookup 6911)) = some (6912, some 0, some 0, some 0) := by decide +kernel
/-- V29, V30. -/
theorem test_fillattr_bytes :
    (vramOf (exec (.fillattr 0x138) (small [(6143, 3), (6911, 7)]))).map (fun m =>
      (m.length, m.lookup 6143, m.lookup 6144, m.lookup 6911)) =
      some (769, some 3, some 0x38, some 0x38) := by decide +kernel

/-! ## Renderer -/

/-- V34: flashing, phase 1. -/
theorem test_render_swapped :
    frameOf (exec .render (small [(0, 0xA5), (6144, 0xB9)] 32)) = some (33, 1, [7, 1, 7, 1, 1, 7, 1, 7]) := by
  decide +kernel
/-- V38: bright, not flashing; the counter wraps as in V35. -/
theorem test_render_bright_and_wrap :
    frameOf (exec .render (small [(0, 0x0F), (6144, 0x47)] 63)) = some (0, 1, [8, 8, 8, 8, 15, 15, 15, 15]) := by
  decide +kernel

/-! ## Line rasterizer -/

/-- V44, V48, V58. -/
theorem test_drawline_points :
    linePoints 0 0 7 3 = [(0, 0), (1, 0), (2, 0), (3, 1), (4, 1), (5, 2), (6, 2), (7, 3)] ∧
    linePoints 0 7 3 0 = [(0, 7), (0, 6), (0, 5), (1, 4), (1, 3), (2, 2), (2, 1), (3, 0)] ∧
    linePoints 10 10 4 12 = [(4, 12), (5, 12), (6, 12), (7, 11), (8, 11), (9, 11), (10, 10)] := by decide +kernel
/-- V54: clipping. -/
theorem test_drawline_clips :
    vramOf (exec (.drawline 250 10 260 12) (small [(575, 0), (831, 0)])) = some [(575, 0x3E), (831, 0x01)] := by
  decide +kernel

/-! ## Math unit -/

/-- V60, V61, V62. -/
theorem test_smul8_products :
    answerOf (exec (.smul8 0x80 0x80) State.reset) = some (.value 16384) ∧
    answerOf (exec (.smul8 0xFF80 127) State.reset) = some (.value (slot (-16256))) ∧
    answerOf (exec (.smul8 0x1FF 2) State.reset) = some (.value (slot (-2))) := by decide +kernel
/-- V69, V70, V72. -/
theorem test_sin_entries :
    answerOf (exec (.sin 192) State.reset) = some (.value (slot (-127))) ∧
    answerOf (exec (.sin 0xFFFF) State.reset) = some (.value (slot (-3))) ∧
    answerOf (exec (.sin 43) State.reset) = some (.value 111) := by decide +kernel
/-- V74, V76. -/
theorem test_cos_entries :
    answerOf (exec (.cos 64) State.reset) = some (.value 0) ∧
    answerOf (exec (.cos 255) State.reset) = some (.value 127) := by decide +kernel
/-- V78, V81. -/
theorem test_rotpair_values :
    answerOf (exec (.rotpair 100 50 90 90) State.reset) = some (.pair 35 105) ∧
    answerOf (exec (.rotpair 0xFFFF 0 0 127) State.reset) = some (.pair (slot (-1)) 0) := by decide +kernel
/-- V86, V87: saturation on both sides. -/
theorem test_rotpair_saturates :
    answerOf (exec (.rotpair 0x80 127 90 90) State.reset) = some (.pair (slot (-128)) (slot (-1))) ∧
    answerOf (exec (.rotpair 0x80 0x80 0x80 0x80) State.reset) = some (.pair 0 127) := by decide +kernel
/-- V94, V95. -/
theorem test_rotxyz_values :
    answerOf (exec (.rotxyz 10 20 30 10 20 30) State.reset) = some (.triple (slot (-20)) 14 27) ∧
    answerOf (exec (.rotxyz 50 60 70 266 (slot (-20)) 300) State.reset) = some (.triple 6 50 89) := by decide +kernel
/-- V96, V101, V104, V109. -/
theorem test_project_values :
    answerOf (exec (.project 35 105 100 200) State.reset) = some (.pair 151 165) ∧
    answerOf (exec (.project 50 50 0 200) State.reset) = some (.pair 78 46) ∧
    answerOf (exec (.project 127 0xFF80 1 200) State.reset) = some (.pair 254 225) ∧
    answerOf (exec (.project 10 10 300 (slot (-100))) State.reset) = some (.pair 123 91) := by decide +kernel
/-- V97, V98, V99. -/
theorem test_project_denominator :
    answerOf (exec (.project 10 10 (slot (-300)) 200) State.reset) = some .noProjection ∧
    answerOf (exec (.project 10 10 (slot (-200)) 200) State.reset) = some .noProjection ∧
    answerOf (exec (.project 10 10 (slot (-199)) 200) State.reset) = some (.pair 127 95) := by decide +kernel

/-! ## One step -/

/-- V7 through the command port; and the same word with `B = 256`, which is off the screen. -/
theorem test_step_setpixel :
    vramOf (step ((small [(257, 0)]).withFetchWord 104 0x0100000912)) = some [(257, 0)] ∧
    vramOf (step ((small [(257, 0)]).withFetchWord 104 0x01000912)) = some [(257, 0x40)] := by decide +kernel
/-- Rule R66. -/
theorem test_step_reserved :
    refusalOf (step (State.reset.withFetchWord 104 0)) = some (.reservedOpcode 0) := by decide +kernel

/-! ## Witnesses: the hypotheses of the statements can be met -/

/-- UnnamedSlotsAreIgnored: a CLS word and one with other bits in the slots CLS does not name. -/
theorem witness_unnamedSlots : decodeWord 0x23 = .ok .cls ∧ decodeWord 0xFFFF23 = .ok .cls ∧
    (0xFFFF23 : CommandWord).setWidth (8 + 16 * Instr.cls.arity) =
      (0x23 : CommandWord).setWidth (8 + 16 * Instr.cls.arity) := by decide +kernel
/-- ReservedOpcodesAreRefused, and the last clause of RefusedExactlyOutsideTheContract. -/
theorem witness_reservedOpcode : (State.reset.withCommands [0]).commands = 0 :: [] ∧ opcodeOf 0 ∉ definedOpcodes ∧
    decodeWord 0 = .error (.reservedOpcode 0) ∧ opcodeOf 0x55 ∈ definedOpcodes := by decide +kernel
/-- ResponseWordFields: responses that define their slots. -/
theorem witness_responseSlots : (Response.triple 1 2 3).r0 = some 1 ∧ (Response.triple 1 2 3).r1 = some 2 ∧
    (Response.triple 1 2 3).r2 = some 3 := by decide
/-- AssemblerOperandsAndPseudoForm: a PROJECT word; the operand range at its ends. -/
theorem witness_assembler : opcodeOf 0x55 = 0x55 ∧ operandSlot (-32768) = some 0x8000 ∧
    operandSlot 65535 = some 0xFFFF ∧ operandSlot (-32769) = none ∧ operandSlot 65536 = none := by decide +kernel
/-- StepRunsTheDecodedInstruction. -/
theorem witness_stepRuns : (State.reset.withCommands [0x23]).commands = 0x23 :: [] ∧ decodeWord 0x23 = .ok .cls := by
  decide +kernel
/-- IdleBlockLosesNothing. -/
theorem witness_idle : State.reset.commands = [] := rfl
/-- The domain clauses of RefusedExactlyOutsideTheContract, ScraddrAnswersTheOffset, AttraddrAnswersTheOffset,
SetattrStoresOneByte, GetattrAnswersTheByte, SetpixelSetsOneBit and ClrpixelClearsOneBit, at the ends of the ranges. -/
theorem witness_domains :
    onScreen 255 191 = true ∧ onScreen 0 0 = true ∧ onScreen 256 0 = false ∧ onScreen 0 192 = false ∧
    onScreen (slot (-1)) 0 = false ∧ onScreen 0 (slot (-1)) = false ∧
    inGrid 31 23 = true ∧ inGrid 0 0 = true ∧ inGrid 32 0 = false ∧ inGrid 0 24 = false ∧
    inGrid (slot (-1)) 0 = false ∧ inGrid 0 (slot (-1)) = false := by decide
/-- ResetMeetsTheInvariant, StepKeepsTheInvariant: the invariant holds in a state whose next command is SETPIXEL 9, 1, and the step
answers a next state. -/
theorem witness_invariant : ((small [(257, 0)]).withFetchWord 104 0x01000912).Inv ∧
    ∃ t, step ((small [(257, 0)]).withFetchWord 104 0x01000912) = .next t :=
  ⟨⟨by decide, rfl, rfl⟩, ⟨_, rfl⟩⟩
/-- OnlyTheNamedOperationsChangeState, PureOperationsOnlyAnswer: an operation that writes nothing completes. -/
theorem witness_pureOperation : ¬ writesVram (.getpixel 9 1) ∧ (Instr.getpixel 9 1 ≠ .render) ∧
    ∃ t, exec (.getpixel 9 1) State.reset = .next t := ⟨id, by decide, ⟨_, rfl⟩⟩
/-- OnlyRenderReadsOrWritesTheCounter, OnlyRenderReadsThePalette. -/
theorem witness_render : (Instr.cls ≠ .render) ∧ (31 : BitVec 6).getLsbD 5 = State.reset.frame.getLsbD 5 ∧
    (∃ t, exec .render State.reset = .next t) ∧ ∃ u, exec .render { State.reset with frame := 31 } = .next u :=
  ⟨by decide, by decide, ⟨_, rfl⟩, ⟨_, rfl⟩⟩
/-- WritesStayInTheirRegion: a byte changes in each region. -/
theorem witness_writes :
    (∃ t, exec (.setpixel 255 191) (small [(6143, 0)]) = .next t ∧ t.vram.read 6143 ≠ (small [(6143, 0)]).vram.read 6143) ∧
    (∃ t, exec (.setattr 0 0 1) (small [(6144, 0)]) = .next t ∧ t.vram.read 6144 ≠ (small [(6144, 0)]).vram.read 6144) :=
  ⟨⟨_, rfl, by decide +kernel⟩, ⟨_, rfl, by decide +kernel⟩⟩
/-- ValidBitIsZeroOnlyForNoProjection, ProjectAnswers: denominators 0 and 1 (V98, V99). -/
theorem witness_projection : (slot (-200)).toInt + (200 : Slot).toInt ≤ 0 ∧ 0 < (slot (-199)).toInt + (200 : Slot).toInt ∧
    ∃ t, exec (.project 10 10 (slot (-200)) 200) State.reset = .next t := ⟨by decide, by decide, ⟨_, rfl⟩⟩
/-- RunsInsideTheContractComplete: two commands that keep the host's duties. -/
theorem witness_inContract : (State.reset.withCommands [encode .cls, encode (.setattr 31 23 7)]).InContract := by
  intro w hw
  simp only [State.withCommands_commands, List.mem_cons, List.not_mem_nil, or_false] at hw
  rcases hw with rfl | rfl <;> decide +kernel
/-- StepKeepsTheContract: the same state, its first command and the one that remains. -/
theorem witness_contractStep : (State.reset.withCommands [encode .cls, encode (.setattr 31 23 7)]).InContract ∧
    (State.reset.withCommands [encode .cls, encode (.setattr 31 23 7)]).commands =
      encode .cls :: [encode (.setattr 31 23 7)] := ⟨witness_inContract, rfl⟩
/-- CanonicalMemoriesAreEqualData. -/
theorem witness_canonical : Memory.wf [(0, 1), (6911, 2)] := by decide
/-- NonLinearLayoutSteps: inside a cell row, to the next cell row, to the next third, to the next byte. -/
theorem witness_layoutSteps :
    (∃ y y' : Fin 192, y'.val = y.val + 1 ∧ y.val / 8 = y'.val / 8 ∧ y.val = 190) ∧
    (∃ y y' : Fin 192, y'.val = y.val + 8 ∧ y.val / 64 = y'.val / 64 ∧ y.val = 183) ∧
    (∃ y y' : Fin 192, y'.val = y.val + 64 ∧ y.val = 127) ∧
    (∃ x x' : Fin 256, x'.val = x.val + 8 ∧ x.val = 247) :=
  ⟨⟨190, 191, by decide⟩, ⟨183, 191, by decide⟩, ⟨127, 191, by decide⟩, ⟨247, 255, by decide⟩⟩
/-- PixelTranslationIsABijection, at the last offset. -/
theorem witness_lastPixelByte : (6143 : Offset).val < 6144 := by decide
/-- PixelsAreIndependent: two pixels of one byte, one of them set. -/
theorem witness_pixels :
    (∃ t, exec (.setpixel 9 1) (small [(257, 0x20)]) = .next t) ∧ (∃ u, exec (.clrpixel 9 1) (small [(257, 0x20)]) = .next u) ∧
    onScreen 9 1 = true ∧ ((10, 1) : Slot × Slot) ≠ (9, 1) ∧
    exec (.getpixel 10 1) (small [(257, 0x20)]) = .next ((small [(257, 0x20)]).answer (.value 1)) :=
  ⟨⟨_, rfl⟩, ⟨_, rfl⟩, by decide, by decide, rfl⟩
/-- PixelsAndAttributesDoNotDisturbEachOther. -/
theorem witness_regions :
    (∃ t, exec (.fillattr 7) (small [(257, 0x40), (6144, 0xB9)]) = .next t) ∧
    exec (.getpixel 9 1) (small [(257, 0x40), (6144, 0xB9)]) =
      .next ((small [(257, 0x40), (6144, 0xB9)]).answer (.value 1)) ∧
    (∃ t, exec (.drawline 0 0 7 3) (small [(257, 0x40), (6144, 0xB9)]) = .next t) ∧
    exec (.getattr 0 0) (small [(257, 0x40), (6144, 0xB9)]) =
      .next ((small [(257, 0x40), (6144, 0xB9)]).answer (.value 0xB9)) :=
  ⟨⟨_, rfl⟩, rfl, ⟨_, rfl⟩, rfl⟩
/-- FlashPhaseTogglesEvery32Frames: reset, and a run of one RENDER from it. -/
theorem witness_flashRun : State.reset.frame = 0 ∧ State.reset.frames = [] ∧
    ∃ t, (State.reset.withCommands [encode .render]).Reaches 1 t ∧ t.frames.length = 1 :=
  ⟨rfl, rfl, ⟨_, rfl, rfl⟩⟩
/-- UpscaledFrameReplicatesPixels, LinePointsClosedForm, EndpointOrderCannotBeObserved, LineStaysBetweenItsEndpoints: a scale factor;
lines of both branches, of equal columns, of equal deltas. -/
theorem witness_lines : 1 ≤ 1 ∧ ((0 : Int) ≤ 7 ∧ (0 : Int) ≠ 7) ∧ ((2 : Int) ≤ 2) ∧
    (slot (-32768)).toInt ≤ (slot 32767).toInt := by decide
/-- SineSymmetries, RotationByZeroLosesPrecision, SineRomIsTheRoundedSine, MathUnitIsAPureFunction. -/
theorem witness_sine : State.reset.sine = sineTable ∧ isMath (.sin 64) ∧ State.reset.sine = (small [(0, 1)]).sine ∧
    ∃ t, exec (.sin 64) State.reset = .next t := ⟨rfl, trivial, rfl, ⟨_, rfl⟩⟩
/-- ProjectMultiplierSign: the two rows of rule R170's table where the clauses meet, and the last with a projection. -/
theorem witness_multiplier : 0 < (200 : Slot).toInt ∧ (0 < (1 : Slot).toInt + (200 : Slot).toInt ∧ 0 < (1 : Slot).toInt) ∧
    (0 < (0 : Slot).toInt + (200 : Slot).toInt ∧ (0 : Slot).toInt ≤ 0) ∧
    (0 < (slot (-199)).toInt + (200 : Slot).toInt ∧ (slot (-199)).toInt ≤ 0) := by decide

end Sys2Proof.Tests
end

section
/-! The idle block: what a step does while the host presents no command (rules R8, R199; log entry 5). -/

namespace Sys2Proof.Machine

/-- Settles O9: it is the case of an empty command list of the step, `step_idle`. -/
theorem idleBlockLosesNothing : Obligations.IdleBlockLosesNothing :=
  fun _ noCommand => step_idle noCommand

end Sys2Proof.Machine
end

section
/-! What an operation does to the state: RENDER advances the counter and emits a frame; every other operation writes at most VRAM, is
blind to everything but VRAM and the sine ROM, and returns one response (rules R25, R32, R35). -/

namespace Sys2Proof.Machine

open Sys2Proof.Claims

/-- The state with the VRAM it already holds is itself. -/
theorem State.withVram_of_vram_eq {s : State} {m : Memory} (h : s.vram = m) : s.withVram m = s := by
  subst h; rfl

/-- An operation that completes and is not RENDER puts some VRAM in place and answers; that VRAM is the old one unless the operation is
one of the six that write it, and it is canonical when the old one was. -/
theorem exec_next_of_ne_render {i : Instr} {s t : State} (hi : i ≠ .render) (h : exec i s = .next t) :
    ∃ m r, t = (s.withVram m).answer r ∧ (¬ writesVram i → m = s.vram) ∧ (s.vram.wf → m.wf) := by
  obtain ⟨r, rfl⟩ | ⟨x, y, rfl, rfl⟩ | ⟨x, y, rfl, rfl⟩ | ⟨col, row, value, c, r, rfl, -, rfl⟩ | ⟨rfl, rfl⟩ |
    ⟨value, rfl, rfl⟩ | ⟨x0, y0, x1, y1, rfl, rfl⟩ | ⟨rfl, -⟩ := exec_next_cases h
  · exact ⟨s.vram, r, rfl, fun _ => rfl, id⟩
  · exact ⟨_, _, rfl, (absurd trivial ·), fun hwf => wf_plot hwf _ _⟩
  · exact ⟨_, _, rfl, (absurd trivial ·), fun hwf => wf_unplot hwf _ _⟩
  · exact ⟨_, _, rfl, (absurd trivial ·), fun hwf => Memory.wf_write hwf _ _⟩
  · exact ⟨_, _, rfl, (absurd trivial ·), fun hwf => Memory.wf_fill hwf _ (by decide)⟩
  · exact ⟨_, _, rfl, (absurd trivial ·), fun hwf => Memory.wf_fill hwf _ (by decide)⟩
  · exact ⟨_, _, rfl, (absurd trivial ·), fun hwf => wf_plotAll hwf _⟩
  · exact absurd rfl hi

/-- RENDER always completes, in one way. -/
theorem exec_render_next {s t : State} (h : exec .render s = .next t) :
    t = (s.emit (renderFrame s.vram s.palette (flashPhase s.frame))).advanceFrame.answer .done :=
  (Host.Outcome.next.inj h).symm

/-- Rule R53: no operation writes a ROM; nor does it touch the commands still to present. -/
theorem exec_next_roms_and_commands {i : Instr} {s t : State} (h : exec i s = .next t) :
    t.sine = s.sine ∧ t.palette = s.palette ∧ t.commands = s.commands := by
  by_cases hi : i = .render
  · subst hi; obtain rfl := exec_render_next h; exact ⟨rfl, rfl, rfl⟩
  · obtain ⟨m, r, rfl, -, -⟩ := exec_next_of_ne_render hi h; exact ⟨rfl, rfl, rfl⟩

/-- Every operation keeps VRAM canonical. -/
theorem exec_next_wf {i : Instr} {s t : State} (hwf : s.vram.wf) (h : exec i s = .next t) : t.vram.wf := by
  by_cases hi : i = .render
  · subst hi; obtain rfl := exec_render_next h; exact hwf
  · obtain ⟨m, r, rfl, -, hm⟩ := exec_next_of_ne_render hi h; exact hm hwf

/-- Settles O14: RENDER by its one outcome, the others by `exec_next_of_ne_render`. -/
theorem onlyTheNamedOperationsChangeState : Obligations.OnlyTheNamedOperationsChangeState := by
  intro i s t h
  refine ⟨fun hw => ?_, fun hi => ?_, exec_next_roms_and_commands h⟩
  · by_cases hi : i = .render
    · subst hi; obtain rfl := exec_render_next h; rfl
    · obtain ⟨m, r, rfl, hm, -⟩ := exec_next_of_ne_render hi h; exact hm hw
  · obtain ⟨m, r, rfl, -, -⟩ := exec_next_of_ne_render hi h; exact ⟨rfl, rfl⟩

end Sys2Proof.Machine
end

section
/-! The invariant of the machine (rules R21, R26, R28, R41, R53): it holds after reset and every step keeps it. -/

namespace Sys2Proof.Machine

theorem State.inv_withCommands {s : State} (ws : List CommandWord) : (s.withCommands ws).Inv ↔ s.Inv := Iff.rfl

/-- Every operation keeps the invariant. -/
theorem exec_next_inv {i : Instr} {s t : State} (hs : s.Inv) (h : exec i s = .next t) : t.Inv := by
  obtain ⟨hwf, hsine, hpalette⟩ := hs
  obtain ⟨sine_eq, palette_eq, -⟩ := exec_next_roms_and_commands h
  exact ⟨exec_next_wf hwf h, sine_eq.trans hsine, by rw [palette_eq]; exact hpalette⟩

/-- Settles O11: an idle step changes nothing, and any other runs one operation, which keeps the invariant. -/
theorem stepKeepsTheInvariant : Obligations.StepKeepsTheInvariant := by
  intro s t hs h
  obtain ⟨-, rfl⟩ | ⟨w, rest, i, -, -, hexec⟩ := step_next_cases h
  · exact hs
  · exact exec_next_inv ((State.inv_withCommands rest).2 hs) hexec

/-- Settles O12: nothing is listed in VRAM yet, and the ROMs hold their constants. -/
theorem resetMeetsTheInvariant : Obligations.ResetMeetsTheInvariant :=
  ⟨⟨.nil, fun _ hc => absurd hc List.not_mem_nil⟩, rfl, rfl⟩

/-- Settles O13: an unwritten byte reads as `VRAM_RESET`, the sine ROM by its 256 values, the palette entry by entry. -/
theorem stateAfterReset : Obligations.StateAfterReset := by
  refine ⟨fun o => rfl, rfl, by decide, rfl, by decide +kernel, fun i => ?_⟩
  fin_cases i <;> rfl

end Sys2Proof.Machine
end

section
/-! The frame counter (rules R25, R121, R127). -/

namespace Sys2Proof.Machine

open Sys2Proof.Claims

/-- The three rotations read the state through its sine ROM only. -/
theorem rotXYZ_congr {s t : State} (h : s.sine = t.sine) (x y z : Int) (ax ay az : Byte) :
    rotXYZ s x y z ax ay az = rotXYZ t x y z ax ay az := by
  simp only [rotXYZ, State.sinOf_congr h, State.cosOf_congr h]

/-- Rules R25, R40: what an operation other than RENDER does is settled by VRAM and the sine ROM: in every state with the same two it is
refused for the same reason, or puts the same VRAM in place and gives the same response. -/
theorem exec_determined_by_vram_and_sine {i : Instr} (hi : i ≠ .render) (s : State) :
    (∃ e, ∀ s' : State, s'.vram = s.vram → s'.sine = s.sine → exec i s' = .refused e) ∨
    ∃ m r, ∀ s' : State, s'.vram = s.vram → s'.sine = s.sine → exec i s' = .next ((s'.withVram m).answer r) := by
  have answers (r : Response)
      (h : ∀ s' : State, s'.vram = s.vram → s'.sine = s.sine → exec i s' = .next (s'.answer r)) :
      ∃ m r, ∀ s' : State, s'.vram = s.vram → s'.sine = s.sine → exec i s' = .next ((s'.withVram m).answer r) :=
    ⟨s.vram, r, fun s' hv hs => by rw [State.withVram_of_vram_eq hv]; exact h s' hv hs⟩
  cases i with
  | scraddr x y =>
    cases hp : screenPoint? (sext16 x) (sext16 y) with
    | none => exact .inl ⟨_, fun s' _ _ => exec_scraddr_off s' hp⟩
    | some p => exact .inr (answers _ fun s' _ _ => exec_scraddr_on s' hp)
  | attraddr col row =>
    cases hp : gridCell? (sext16 col) (sext16 row) with
    | none => exact .inl ⟨_, fun s' _ _ => exec_attraddr_out s' hp⟩
    | some p => exact .inr (answers _ fun s' _ _ => exec_attraddr_in s' hp)
  | setpixel x y => exact .inr ⟨_, _, fun s' hv _ => by rw [exec_setpixel, hv]⟩
  | clrpixel x y => exact .inr ⟨_, _, fun s' hv _ => by rw [exec_clrpixel, hv]⟩
  | getpixel x y => exact .inr (answers _ fun s' hv _ => by rw [exec_getpixel, hv])
  | setattr col row value =>
    cases hp : gridCell? (sext16 col) (sext16 row) with
    | none => exact .inl ⟨_, fun s' _ _ => exec_setattr_out s' value hp⟩
    | some p => exact .inr ⟨_, _, fun s' hv _ => by rw [exec_setattr_in s' value hp, hv]⟩
  | getattr col row =>
    cases hp : gridCell? (sext16 col) (sext16 row) with
    | none => exact .inl ⟨_, fun s' _ _ => exec_getattr_out s' hp⟩
    | some p => exact .inr (answers _ fun s' hv _ => by rw [exec_getattr_in s' hp, hv])
  | makeattr ink paper bright flash => exact .inr (answers _ fun s' _ _ => exec_makeattr s' ink paper bright flash)
  | cls => exact .inr ⟨_, _, fun s' hv _ => by rw [exec_cls, hv]⟩
  | fillattr value => exact .inr ⟨_, _, fun s' hv _ => by rw [exec_fillattr, hv]⟩
  | render => exact absurd rfl hi
  | drawline x0 y0 x1 y1 => exact .inr ⟨_, _, fun s' hv _ => by rw [exec_drawline, hv]⟩
  | smul8 a b => exact .inr (answers _ fun s' _ _ => exec_smul8 s' a b)
  | sin angle => exact .inr (answers _ fun s' _ hs => by rw [exec_sin, State.sinOf_congr hs])
  | cos angle => exact .inr (answers _ fun s' _ hs => by rw [exec_cos, State.cosOf_congr hs])
  | rotpair a b sv cv => exact .inr (answers _ fun s' _ _ => exec_rotpair s' a b sv cv)
  | rotxyz x y z ax ay az =>
    exact .inr (answers _ fun s' _ hs => by rw [exec_rotxyz, rotXYZ_congr hs])
  | project x y z vd =>
    by_cases hd : sext16 z + sext16 vd ≤ 0
    · exact .inr (answers _ fun s' _ _ => exec_project_fails s' hd)
    · exact .inr (answers _ fun s' _ _ => exec_project s' (not_le.1 hd))

/-- Settles O15: RENDER by its one outcome; the others because neither VRAM nor the sine ROM holds the counter. -/
theorem onlyRenderReadsOrWritesTheCounter : Obligations.OnlyRenderReadsOrWritesTheCounter := by
  refine ⟨fun s t h => ?_, fun i s f hi => ?_, fun s t u f hphase ht hu => ?_⟩
  · rw [exec_render_next h]; rfl
  · obtain ⟨e, he⟩ | ⟨m, r, hr⟩ := exec_determined_by_vram_and_sine hi s
    · rw [he s rfl rfl, he { s with frame := f } rfl rfl, onNext]
    · rw [hr s rfl rfl, hr { s with frame := f } rfl rfl]; rfl
  · have samePhase : flashPhase f = flashPhase s.frame := hphase
    rw [exec_render_next ht, exec_render_next hu]
    simp [samePhase]

end Sys2Proof.Machine
end

section
/-! The valid bit (rule R32). -/

namespace Sys2Proof.Machine

/-- PROJECT signals "no projection": its denominator is not positive (rule R169). -/
def SignalsNoProjection (i : Instr) : Prop :=
  ∃ x y z vd : Slot, i = .project x y z vd ∧ z.toInt + vd.toInt ≤ 0

theorem signalsNoProjection_project {x y z vd : Slot} :
    SignalsNoProjection (.project x y z vd) ↔ z.toInt + vd.toInt ≤ 0 := by
  simp [SignalsNoProjection]

/-- An operation other than PROJECT that completes returns one valid response. -/
theorem exec_next_valid {i : Instr} {s t : State} (hi : ∀ x y z vd, i ≠ .project x y z vd)
    (h : exec i s = .next t) : ∃ r, t.responses = s.responses ++ [r] ∧ r.valid = true := by
  have answered {u : State} {r : Response} (hexec : exec i s = .next (u.answer r))
      (hu : u.responses = s.responses) (hr : r.valid = true) :
      ∃ r, t.responses = s.responses ++ [r] ∧ r.valid = true := by
    obtain rfl := Host.Outcome.next.inj (hexec.symm.trans h)
    exact ⟨r, by rw [State.answer_responses, hu], hr⟩
  cases i with
  | scraddr x y =>
    cases hp : screenPoint? (sext16 x) (sext16 y) with
    | none => cases (exec_scraddr_off s hp).symm.trans h
    | some p => exact answered (exec_scraddr_on s hp) rfl rfl
  | attraddr col row =>
    cases hp : gridCell? (sext16 col) (sext16 row) with
    | none => cases (exec_attraddr_out s hp).symm.trans h
    | some p => exact answered (exec_attraddr_in s hp) rfl rfl
  | setpixel x y => exact answered (exec_setpixel s x y) rfl rfl
  | clrpixel x y => exact answered (exec_clrpixel s x y) rfl rfl
  | getpixel x y => exact answered (exec_getpixel s x y) rfl rfl
  | setattr col row value =>
    cases hp : gridCell? (sext16 col) (sext16 row) with
    | none => cases (exec_setattr_out s value hp).symm.trans h
    | some p => exact answered (exec_setattr_in s value hp) rfl rfl
  | getattr col row =>
    cases hp : gridCell? (sext16 col) (sext16 row) with
    | none => cases (exec_getattr_out s hp).symm.trans h
    | some p => exact answered (exec_getattr_in s hp) rfl rfl
  | makeattr ink paper bright flash => exact answered (exec_makeattr s ink paper bright flash) rfl rfl
  | cls => exact answered (exec_cls s) rfl rfl
  | fillattr value => exact answered (exec_fillattr s value) rfl rfl
  | render => exact answered (exec_render s) rfl rfl
  | drawline x0 y0 x1 y1 => exact answered (exec_drawline s x0 y0 x1 y1) rfl rfl
  | smul8 a b => exact answered (exec_smul8 s a b) rfl rfl
  | sin angle => exact answered (exec_sin s angle) rfl rfl
  | cos angle => exact answered (exec_cos s angle) rfl rfl
  | rotpair a b sv cv => exact answered (exec_rotpair s a b sv cv) rfl rfl
  | rotxyz x y z ax ay az => exact answered (exec_rotxyz s x y z ax ay az) rfl rfl
  | project x y z vd => exact absurd rfl (hi x y z vd)

/-- PROJECT returns one response, valid exactly when its denominator is positive. -/
theorem exec_project_next {x y z vd : Slot} {s t : State} (h : exec (.project x y z vd) s = .next t) :
    ∃ r, t.responses = s.responses ++ [r] ∧ (r.valid = false ↔ z.toInt + vd.toInt ≤ 0) := by
  by_cases hd : sext16 z + sext16 vd ≤ 0
  · rw [exec_project_fails s hd] at h
    obtain rfl := Host.Outcome.next.inj h
    exact ⟨_, rfl, iff_of_true rfl hd⟩
  · rw [exec_project s (not_le.1 hd)] at h
    obtain rfl := Host.Outcome.next.inj h
    exact ⟨_, rfl, iff_of_false nofun hd⟩

/-- Settles O19: PROJECT by its denominator, every other operation because its response is valid. -/
theorem validBitIsZeroOnlyForNoProjection : Obligations.ValidBitIsZeroOnlyForNoProjection := by
  intro i s t h
  by_cases hi : ∃ x y z vd, i = .project x y z vd
  · obtain ⟨x, y, z, vd, rfl⟩ := hi
    obtain ⟨r, hr, hvalid⟩ := exec_project_next h
    exact ⟨r, hr, hvalid.trans signalsNoProjection_project.symm⟩
  · push Not at hi
    obtain ⟨r, hr, hvalid⟩ := exec_next_valid hi h
    refine ⟨r, hr, iff_of_false (by simp [hvalid]) ?_⟩
    rintro ⟨x, y, z, vd, rfl, -⟩
    exact hi x y z vd rfl

end Sys2Proof.Machine
end

section
/-! The two symmetries of the sine table (rule R27), seen through SIN (rule R162). -/

namespace Sys2Proof.Machine

/-- Half a turn further on the table holds the negative entry. -/
theorem reset_sinOf_add_half_turn : ∀ a : Byte, State.reset.sinOf (a + 128) = -State.reset.sinOf a := by
  decide +kernel

/-- Reflected at a quarter turn the table holds the same entry. -/
theorem reset_sinOf_half_turn_sub : ∀ a : Byte, State.reset.sinOf (128 - a) = State.reset.sinOf a := by
  decide +kernel

theorem zext8_add (a b : Slot) : zext8 (a + b) = zext8 a + zext8 b :=
  BitVec.setWidth_add a b (by decide)

theorem zext8_sub (a b : Slot) : zext8 (a - b) = zext8 a - zext8 b := by
  unfold zext8; bv_omega

theorem signExtended_neg (v : Int) : signExtended (-v) = -signExtended v := BitVec.ofInt_neg

/-- Settles O50: the low byte of the angle takes part in the sum and in the difference, and the table has both symmetries. -/
theorem sineSymmetries : Obligations.SineSymmetries := by
  intro angle s hs
  refine ⟨signExtended (s.sinOf (zext8 angle)), exec_sin s angle, ?_, ?_⟩
  · have h : s.sinOf (zext8 (angle + 128)) = -s.sinOf (zext8 angle) := by
      rw [zext8_add, State.sinOf_congr (t := .reset) hs, State.sinOf_congr (t := .reset) hs]
      exact reset_sinOf_add_half_turn _
    rw [exec_sin, h, signExtended_neg]
  · have h : s.sinOf (zext8 (128 - angle)) = s.sinOf (zext8 angle) := by
      rw [zext8_sub, State.sinOf_congr (t := .reset) hs, State.sinOf_congr (t := .reset) hs]
      exact reset_sinOf_half_turn_sub _
    rw [exec_sin, h]

end Sys2Proof.Machine
end

section
/-! The sine ROM against the real sine (rule R26). Its entries are checked against the powers of one Gaussian integer close to
`10^9 * e^(iπ/128)`: a power of it strays from the turn it stands for by no more than the exponent times the error of the first step, and
every entry keeps a distance of more than 0.001 from the nearest half. -/

namespace Sys2Proof.Machine

open GaussianInt (toComplex toComplex_def₂ intCast_im)

/-- The sine between its first two Taylor terms, over an interval of angles. -/
theorem sin_bounds_of_mem {lo hi x : ℝ} (hlo : 0 ≤ lo) (h1 : lo ≤ x) (h2 : x ≤ hi) (hhi : hi ≤ 1) :
    lo - hi ^ 3 / 6 - hi ^ 5 / 100 ≤ Real.sin x ∧ Real.sin x ≤ hi - lo ^ 3 / 6 + hi ^ 5 / 100 := by
  have hx : 0 ≤ x := hlo.trans h1
  have taylor := abs_le.1 (Real.sin_bound (abs_le.2 ⟨by linarith, h2.trans hhi⟩))
  rw [abs_of_nonneg hx] at taylor
  have hcubeLo : lo ^ 3 ≤ x ^ 3 := pow_le_pow_left₀ hlo h1 3
  have hcubeHi : x ^ 3 ≤ hi ^ 3 := pow_le_pow_left₀ hx h2 3
  have hfifth : x ^ 5 ≤ hi ^ 5 := pow_le_pow_left₀ hx h2 5
  constructor <;> linarith

theorem abs_sin_pi_div_128_sub_le : |Real.sin (Real.pi / 128) - 0.024541228| ≤ 1 / 10 ^ 9 := by
  have hlo := Real.pi_gt_d20
  have hhi := Real.pi_lt_d20
  have h := sin_bounds_of_mem (lo := 0.0245436926) (hi := 0.0245436927) (x := Real.pi / 128)
    (by norm_num) (by linarith) (by linarith) (by norm_num)
  rw [abs_le]
  norm_num at h ⊢
  constructor <;> linarith

/-- By the sine of half the angle, where Taylor's two terms are sharper than for the cosine. -/
theorem abs_cos_pi_div_128_sub_le : |Real.cos (Real.pi / 128) - 0.999698818| ≤ 1 / 10 ^ 9 := by
  have hlo := Real.pi_gt_d20
  have hhi := Real.pi_lt_d20
  obtain ⟨h1, h2⟩ := sin_bounds_of_mem (lo := 0.0122718463) (hi := 0.0122718464) (x := Real.pi / 256)
    (by norm_num) (by linarith) (by linarith) (by norm_num)
  have hcos : Real.cos (Real.pi / 128) = 1 - 2 * Real.sin (Real.pi / 256) ^ 2 := by
    rw [show Real.pi / 128 = 2 * (Real.pi / 256) by ring, Real.cos_two_mul, Real.cos_sq']; ring
  have hsqLo := pow_le_pow_left₀ (by norm_num) h1 2
  have hsqHi := pow_le_pow_left₀ ((by norm_num : (0 : ℝ) ≤ _).trans h1) h2 2
  rw [hcos, abs_le]
  norm_num at hsqLo hsqHi ⊢
  constructor <;> linarith

/-- Inside the unit disc, powers stray by at most the exponent times the distance of their bases. -/
theorem norm_pow_sub_pow_le {z w : ℂ} (hz : ‖z‖ ≤ 1) (hw : ‖w‖ ≤ 1) (k : ℕ) : ‖z ^ k - w ^ k‖ ≤ k * ‖z - w‖ := by
  induction k with
  | zero => simp
  | succ k ih =>
    calc ‖z ^ (k + 1) - w ^ (k + 1)‖ = ‖z ^ k * (z - w) + (z ^ k - w ^ k) * w‖ := by ring_nf
      _ ≤ ‖z‖ ^ k * ‖z - w‖ + ‖z ^ k - w ^ k‖ * ‖w‖ := by
        refine (norm_add_le _ _).trans_eq ?_
        rw [norm_mul, norm_mul, norm_pow]
      _ ≤ 1 * ‖z - w‖ + k * ‖z - w‖ * 1 := by
        gcongr
        exact pow_le_one₀ (norm_nonneg z) hz
      _ = (k + 1 : ℕ) * ‖z - w‖ := by push_cast; ring

/-- `10^9` times one step of the sine ROM's angle, `2π/256`, as a point of the unit circle, both coordinates rounded down. -/
def sineStep : GaussianInt := ⟨999698818, 24541228⟩

/-- The step as a complex number. -/
noncomputable def sineStepPoint : ℂ := ⟨0.999698818, 0.024541228⟩

theorem toComplex_sineStep : toComplex sineStep = 10 ^ 9 * sineStepPoint := by
  rw [toComplex_def₂, sineStep, sineStepPoint, ← Complex.ofReal_ofNat, ← Complex.ofReal_pow]
  apply Complex.ext <;> simp only [Complex.re_ofReal_mul, Complex.im_ofReal_mul] <;> norm_num

/-- Rounded down, the step stays inside the unit disc. -/
theorem norm_sineStepPoint_le : ‖sineStepPoint‖ ≤ 1 := by
  rw [← sq_le_one_iff₀ (norm_nonneg _), ← Complex.normSq_eq_norm_sq, sineStepPoint, Complex.normSq_mk]
  norm_num

theorem norm_sineStepPoint_sub_exp_le :
    ‖sineStepPoint - Complex.exp ((Real.pi / 128 : ℝ) * Complex.I)‖ ≤ 2 / 10 ^ 9 := by
  have hsin := abs_sin_pi_div_128_sub_le
  have hcos := abs_cos_pi_div_128_sub_le
  refine (Complex.norm_le_abs_re_add_abs_im _).trans ?_
  rw [Complex.sub_re, Complex.sub_im, Complex.exp_ofReal_mul_I_re, Complex.exp_ofReal_mul_I_im, sineStepPoint,
    abs_sub_comm, abs_sub_comm (0.024541228 : ℝ)]
  linarith

/-- The imaginary part of the step's power `k` follows the sine of `k` steps. -/
theorem abs_sin_sub_sineStepPoint_pow_im_le (k : ℕ) :
    |Real.sin (2 * Real.pi * k / 256) - (sineStepPoint ^ k).im| ≤ k * (2 / 10 ^ 9) := by
  have turn : Complex.exp ((Real.pi / 128 : ℝ) * Complex.I) ^ k =
      Complex.exp ((2 * Real.pi * k / 256 : ℝ) * Complex.I) := by
    rw [← Complex.exp_nat_mul]; push_cast; ring_nf
  rw [abs_sub_comm, ← Complex.exp_ofReal_mul_I_im, ← turn, ← Complex.sub_im]
  calc |(sineStepPoint ^ k - Complex.exp ((Real.pi / 128 : ℝ) * Complex.I) ^ k).im|
      ≤ ‖sineStepPoint ^ k - Complex.exp ((Real.pi / 128 : ℝ) * Complex.I) ^ k‖ := Complex.abs_im_le_norm _
    _ ≤ k * ‖sineStepPoint - Complex.exp ((Real.pi / 128 : ℝ) * Complex.I)‖ :=
        norm_pow_sub_pow_le norm_sineStepPoint_le (Complex.norm_exp_ofReal_mul_I _).le k
    _ ≤ k * (2 / 10 ^ 9) := by gcongr; exact norm_sineStepPoint_sub_exp_le

/-- The imaginary parts of the powers of `sineStep` are those of its point, scaled. -/
theorem sineStep_pow_im (k : ℕ) : ((sineStep ^ k).im : ℝ) = 10 ^ (9 * k) * (sineStepPoint ^ k).im := by
  rw [intCast_im, map_pow, toComplex_sineStep, mul_pow, ← pow_mul, ← Complex.ofReal_ofNat, ← Complex.ofReal_pow,
    Complex.im_ofReal_mul]

/-- Entry `k` of the ROM is 127 times the imaginary part of the step's power `k`, rounded, with 0.001 to spare. -/
theorem abs_sineStep_pow_im_sub_le : ∀ k : Fin 256,
    1000 * |127 * (sineStep ^ k.val).im - (State.reset.sine[k]).toInt * 10 ^ (9 * k.val)| ≤ 499 * 10 ^ (9 * k.val) := by
  decide +kernel

/-- Entry `k` of the ROM in real numbers. -/
theorem abs_sineStepPoint_pow_im_sub_le (k : Fin 256) :
    |127 * (sineStepPoint ^ k.val).im - ((State.reset.sine[k]).toInt : ℝ)| ≤ 0.499 := by
  have h : 1000 * |127 * ((sineStep ^ k.val).im : ℝ) - ((State.reset.sine[k]).toInt : ℝ) * 10 ^ (9 * k.val)| ≤
      499 * 10 ^ (9 * k.val) := mod_cast abs_sineStep_pow_im_sub_le k
  have hscale : (0 : ℝ) < 10 ^ (9 * k.val) := by positivity
  have unscaled : 127 * ((sineStep ^ k.val).im : ℝ) - ((State.reset.sine[k]).toInt : ℝ) * 10 ^ (9 * k.val) =
      10 ^ (9 * k.val) * (127 * (sineStepPoint ^ k.val).im - ((State.reset.sine[k]).toInt : ℝ)) := by
    rw [sineStep_pow_im]; ring
  rw [unscaled, abs_mul, abs_of_pos hscale] at h
  exact le_of_mul_le_mul_left (by linarith) hscale

theorem reset_sine_range : ∀ k : Fin 256,
    -127 ≤ (State.reset.sine[k]).toInt ∧ (State.reset.sine[k]).toInt ≤ 127 := by
  decide +kernel

/-- Settles O51: at most 0.499 from the power of the step to the entry, and less than 0.0001 from the power to the sine. -/
theorem sineRomIsTheRoundedSine : Obligations.SineRomIsTheRoundedSine := by
  refine ⟨fun i => ⟨?_, reset_sine_range i⟩, fun i s t h => (exec_next_roms_and_commands h).1⟩
  obtain ⟨hentryLo, hentryHi⟩ := abs_le.1 (abs_sineStepPoint_pow_im_sub_le i)
  obtain ⟨hstrayLo, hstrayHi⟩ := abs_le.1 (abs_sin_sub_sineStepPoint_pow_im_le i.val)
  have hi : (i.val : ℝ) ≤ 255 := mod_cast Nat.le_of_lt_succ i.isLt
  rw [abs_lt]
  constructor <;> linarith

end Sys2Proof.Machine
end

section
/-! What an operation reads and writes (rules R40, R59): the palette, the state outside VRAM, the two regions of VRAM. -/

namespace Sys2Proof.Machine

open Sys2Proof.Claims

/-- Settles O16: what an operation other than RENDER does is settled by VRAM and the sine ROM, and neither holds the palette. -/
theorem onlyRenderReadsThePalette : Obligations.OnlyRenderReadsThePalette := by
  intro i s p hi
  obtain ⟨e, he⟩ | ⟨m, r, hr⟩ := exec_determined_by_vram_and_sine hi s
  · rw [he s rfl rfl, he { s with palette := p } rfl rfl, onNext]
  · rw [hr s rfl rfl, hr { s with palette := p } rfl rfl]; rfl

/-- Settles O17: an operation other than RENDER puts some VRAM in place and answers, and one that writes nothing puts the old VRAM
in place. -/
theorem pureOperationsOnlyAnswer : Obligations.PureOperationsOnlyAnswer := by
  intro i s t hw hi h
  obtain ⟨m, r, rfl, hm, -⟩ := exec_next_of_ne_render hi h
  exact ⟨r, by rw [State.withVram_of_vram_eq (hm hw).symm]⟩

/-- Rule R140: no point of a list changes a byte from offset 6144 on. -/
theorem read_plotAll_attribute (m : Memory) (ps : List (Int × Int)) {o : Offset} (ho : 6144 ≤ o.val) :
    (plotAll m ps).read o = m.read o := by
  induction ps generalizing m with
  | nil => rfl
  | cons p ps ih => rw [plotAll_cons, ih, read_plot_attribute m p.1 p.2 ho]

/-- An operation that writes pixel bytes only leaves every byte from offset 6144 on as it was. -/
theorem exec_next_read_attribute {i : Instr} {s t : State} (hi : writesPixelsOnly i) (h : exec i s = .next t)
    {o : Offset} (ho : 6144 ≤ o.val) : t.vram.read o = s.vram.read o := by
  cases i with
  | setpixel x y => obtain rfl := Host.Outcome.next.inj h; exact read_plot_attribute _ _ _ ho
  | clrpixel x y => obtain rfl := Host.Outcome.next.inj h; exact read_unplot_attribute _ _ _ ho
  | drawline x0 y0 x1 y1 => obtain rfl := Host.Outcome.next.inj h; exact read_plotAll_attribute _ _ ho
  | _ => exact hi.elim

/-- SETATTR and FILLATTR leave every byte below offset 6144 as it was. -/
theorem exec_next_read_pixel {i : Instr} {s t : State} (hi : writesAttributesOnly i) (h : exec i s = .next t)
    {o : Offset} (ho : o.val < 6144) : t.vram.read o = s.vram.read o := by
  cases i with
  | setattr col row value =>
    cases hp : gridCell? (sext16 col) (sext16 row) with
    | none => cases (exec_setattr_out s value hp).symm.trans h
    | some p =>
      obtain rfl := Host.Outcome.next.inj ((exec_setattr_in s value hp).symm.trans h)
      have outside : o ≠ attrAddr p.1 p.2 := fun e => (attrAddr_ge p.1 p.2).not_gt (e ▸ ho)
      exact Memory.read_write_other _ _ outside
  | fillattr value =>
    obtain rfl := Host.Outcome.next.inj h
    exact (Memory.read_fill _ _ _ _ _).trans (if_neg fun inside => inside.1.not_gt ho)
  | _ => exact hi.elim

/-- The column of writes of rule R59: the operations that write VRAM by region. -/
theorem writesVram_iff {i : Instr} : writesVram i ↔ writesPixelsOnly i ∨ writesAttributesOnly i ∨ i = .cls := by
  cases i <;> simp [writesVram, writesPixelsOnly, writesAttributesOnly]

/-- Settles O18: an operation that changes a byte writes VRAM, and one that writes in one region only leaves the other as it was. -/
theorem writesStayInTheirRegion : Obligations.WritesStayInTheirRegion := by
  intro i s t o h changed
  have hw : writesVram i := by
    by_contra hw
    exact changed (by rw [(onlyTheNamedOperationsChangeState i s t h).1 hw])
  obtain hi | hi | hi := writesVram_iff.1 hw
  · exact .inl ⟨hi, by_contra fun ho => changed (exec_next_read_attribute hi h (not_lt.1 ho))⟩
  · exact .inr (.inl ⟨hi, by_contra fun ho => changed (exec_next_read_pixel hi h (not_le.1 ho))⟩)
  · exact .inr (.inr hi)

end Sys2Proof.Machine
end

section
/-! A canonical memory is determined by the bytes it lists (rule R41; log entry 1). -/

namespace Sys2Proof.Machine

/-- Every entry of a canonical memory is an entry of any memory that looks up alike at every offset. -/
theorem Memory.subset_of_lookup_eq {m m' : Memory} (hm : m.wf)
    (h : ∀ o : Offset, m.lookup o.val = m'.lookup o.val) : m ⊆ m' := by
  obtain ⟨rising, bounded⟩ := hm
  intro c hc
  exact Memory.mem_of_lookup ((h ⟨c.1, bounded c hc⟩).symm.trans (Memory.lookup_of_mem rising hc))

/-- Settles O21: the two memories have the same entries, and a list in rising order is determined by its entries. -/
theorem canonicalMemoriesAreEqualData : Obligations.CanonicalMemoriesAreEqualData := by
  intro m m' hm hm' h
  have irrefl : Std.Irrefl fun a b : Host.Cell => a.1 < b.1 := ⟨fun _ => lt_irrefl _⟩
  have antisymm : Std.Antisymm fun a b : Host.Cell => a.1 < b.1 := ⟨fun _ _ hab hba => absurd hba hab.asymm⟩
  exact List.Subset.antisymm_of_pairwise hm.1 hm'.1 (Memory.subset_of_lookup_eq hm h)
    (Memory.subset_of_lookup_eq hm' fun o => (h o).symm)

end Sys2Proof.Machine
end

section
/-! The layout of the pixel region (rules R42 to R44): the fields of an offset, the steps between neighbours, the inverse. -/

namespace Sys2Proof.Machine

/-- Settles O22: the fields of the sum `scrAddr_val`, and `scrAddr_lt`. -/
theorem pixelOffsetFields : Obligations.PixelOffsetFields := by
  intro x y
  obtain ⟨hcol, hrow, hline, hthird⟩ := offsetFields (third := y.val / 64) (line := y.val % 8)
    (cellRow := y.val / 8 % 8) (col := x.val / 8) (by omega) (by omega) (by omega)
  rw [← scrAddr_val] at hcol hrow hline hthird
  exact ⟨hthird, hline, hrow, hcol, scrAddr_lt x y⟩

/-- Rule R43: one pixel line down inside a cell row. -/
theorem scrAddr_next_line (x : Fin 256) {y y' : Fin 192} (hy : y'.val = y.val + 1) (sameRow : y.val / 8 = y'.val / 8) :
    (scrAddr x y').val = (scrAddr x y).val + 256 := by
  rw [scrAddr_val, scrAddr_val]; omega

/-- Rule R43: one cell row down inside a third. -/
theorem scrAddr_next_cellRow (x : Fin 256) {y y' : Fin 192} (hy : y'.val = y.val + 8)
    (sameThird : y.val / 64 = y'.val / 64) : (scrAddr x y').val = (scrAddr x y).val + 32 := by
  rw [scrAddr_val, scrAddr_val]; omega

/-- Rule R43: one third down. -/
theorem scrAddr_next_third (x : Fin 256) {y y' : Fin 192} (hy : y'.val = y.val + 64) :
    (scrAddr x y').val = (scrAddr x y).val + 2048 := by
  rw [scrAddr_val, scrAddr_val]; omega

/-- Rule R43: one byte, that is 8 pixels, to the right. -/
theorem scrAddr_next_byte {x x' : Fin 256} (y : Fin 192) (hx : x'.val = x.val + 8) :
    (scrAddr x' y).val = (scrAddr x y).val + 1 := by
  rw [scrAddr_val, scrAddr_val]; omega

/-- Settles O23: the four steps, and the examples by evaluation. -/
theorem nonLinearLayoutSteps : Obligations.NonLinearLayoutSteps :=
  ⟨fun x _ _ => scrAddr_next_line x, fun x _ _ => scrAddr_next_cellRow x, fun x _ _ => scrAddr_next_third x,
    fun _ _ y => scrAddr_next_byte y, by decide⟩

/-- Settles O24: an offset below 6144 is that of some pixel, whose byte column and scanline the inverse gives back, and the pixels of
one offset are those of one byte column and scanline. -/
theorem pixelTranslationIsABijection : Obligations.PixelTranslationIsABijection := by
  intro o ho
  obtain ⟨x₀, y₀, rfl⟩ := exists_scrAddr ho
  rw [pixelByteOf_scrAddr]
  refine ⟨by dsimp only; omega, y₀.isLt, fun x y => ?_⟩
  rw [scrAddr_eq_iff, Fin.ext_iff]

end Sys2Proof.Machine
end

section
/-! Bytes of a word (rule R68): byte by byte a serialised word is the word, and a command word is read back from its 13 bytes. -/

namespace Sys2Proof

/-- Bit `j` of byte `k` of a serialised word is bit `8k+j` of the word. -/
theorem littleEndian_getLsbD {n : Nat} (count : Nat) (w : BitVec n) {k j : Nat} (hk : k < count) (hj : j < 8) :
    ((littleEndian count w)[k]?.getD 0).getLsbD j = w.getLsbD (8 * k + j) := by
  rw [littleEndian_getElem? count w k hk]
  simp [hj]

/-- The bytes of a word are its low byte and then the bytes of the rest. -/
theorem littleEndian_succ {n : Nat} (count : Nat) (w : BitVec n) :
    littleEndian (count + 1) w = w.extractLsb' 0 8 :: littleEndian count (w >>> 8) := by
  have shifted (k : Nat) : w.extractLsb' (8 * (k + 1)) 8 = (w >>> 8).extractLsb' (8 * k) 8 := by
    ext j hj
    simp only [BitVec.getElem_extractLsb', BitVec.getLsbD_ushiftRight]
    congr 1; omega
  simp only [littleEndian, List.range_succ_eq_map, List.map_cons, List.map_map, Function.comp_def, shifted, Nat.mul_zero,
    Nat.succ_eq_add_one]

@[simp] theorem commandOfBytes_cons (b : Byte) (bs : List Byte) :
    commandOfBytes (b :: bs) = (commandOfBytes bs <<< 8) ||| b.setWidth 104 := rfl

/-- Read back from its first `count` bytes, a command word has its low `8 * count` bits, and zero above them. -/
theorem commandOfBytes_littleEndian_getLsbD (count : Nat) (w : CommandWord) (j : Nat) :
    (commandOfBytes (littleEndian count w)).getLsbD j = (decide (j < 8 * count) && w.getLsbD j) := by
  induction count generalizing w j with
  | zero => simp [littleEndian, commandOfBytes]
  | succ count ih =>
    rw [littleEndian_succ, commandOfBytes_cons, BitVec.getLsbD_or, BitVec.getLsbD_shiftLeft, ih,
      BitVec.getLsbD_ushiftRight, BitVec.getLsbD_setWidth, BitVec.getLsbD_extractLsb', Nat.zero_add]
    by_cases hlow : j < 8
    · simp [hlow, show j < 104 by omega, show j < 8 * (count + 1) by omega]
    · have bit : 8 + (j - 8) = j := by omega
      by_cases hword : j < 104
      · simp [hlow, hword, bit, show j - 8 < 8 * count ↔ j < 8 * (count + 1) by omega]
      · simp [hlow, hword, BitVec.getLsbD_of_ge w j (by omega)]

@[simp] theorem commandOfBytes_commandBytes (w : CommandWord) : commandOfBytes (commandBytes w) = w := by
  apply BitVec.eq_of_getLsbD_eq
  intro j hj
  rw [commandBytes, commandOfBytes_littleEndian_getLsbD, decide_eq_true hj, Bool.true_and]

@[simp] theorem commandBytes_length (w : CommandWord) : (commandBytes w).length = 13 := littleEndian_length 13 w

/-- The byte decoder on the 13 bytes of a word, with any bytes after them, is the word decoder. -/
theorem decode_commandBytes_append {w : CommandWord} {i : Instr} (h : decodeWord w = .ok i) (rest : List Byte) :
    decode (commandBytes w ++ rest) = .ok (i, rest) := by
  have enough : ¬ (commandBytes w ++ rest).length < 13 := by simp
  rw [decode, if_neg enough, List.take_left' (commandBytes_length w), List.drop_left' (commandBytes_length w),
    commandOfBytes_commandBytes, h]

/-- Settles O5: the bits by `littleEndian_getLsbD`, the way back by `commandOfBytes_commandBytes`, the two examples by evaluation. -/
theorem wordsAreStoredLittleEndian : Obligations.WordsAreStoredLittleEndian := by
  refine ⟨fun w => ⟨commandBytes_length w, commandOfBytes_commandBytes w, fun k j hk hj => littleEndian_getLsbD 13 w hk hj⟩,
    fun w => ⟨littleEndian_length 7 _, fun k j hk hj => ?_⟩, by decide +kernel, by decide +kernel⟩
  have inside : 8 * k + j < 56 := by omega
  rw [Machine.responseBytes, littleEndian_getLsbD 7 _ hk hj, BitVec.getLsbD_setWidth, decide_eq_true inside, Bool.true_and]

end Sys2Proof
end

section
/-! The word decoder (rules R61, R63, R65, R66): a word selects an operation exactly when it agrees with the operation's own word on
the opcode and on the slots the operation names. -/

namespace Sys2Proof

open Sys2Proof.Machine Sys2Proof.Claims

/-- Two words agree on their low `m + k` bits exactly when they agree on the low `m` and on the `k` above them. -/
theorem setWidth_add_eq_iff {n : Nat} (w w' : BitVec n) (m k : Nat) :
    w.setWidth (m + k) = w'.setWidth (m + k) ↔
      w.setWidth m = w'.setWidth m ∧ w.extractLsb' m k = w'.extractLsb' m k := by
  simp only [BitVec.eq_of_getLsbD_eq_iff, BitVec.getLsbD_setWidth, BitVec.getLsbD_extractLsb']
  constructor
  · exact fun h => ⟨fun j hj => by simpa [hj, Nat.lt_add_right k hj] using h j (by omega),
      fun j hj => by simpa [hj] using h (m + j) (by omega)⟩
  · rintro ⟨low, high⟩ j hj
    by_cases hjm : j < m
    · simpa [hjm, hj] using low j hjm
    · have bit : m + (j - m) = j := by omega
      have inside : j - m < k := by omega
      simpa [hj, bit, inside] using high (j - m) inside

/-- The six operand slots of a command word, `A` first (rule R61). -/
def operandSlots (w : CommandWord) : List Slot := (List.range 6).map fun k => w.extractLsb' (8 + 16 * k) 16

theorem operandSlots_eq (w : CommandWord) :
    operandSlots w = [slotA w, slotB w, slotC w, slotD w, slotE w, slotF w] := rfl

/-- Two command words agree on the low bits that hold the opcode and `n` slots exactly when they agree on each of these. -/
theorem setWidth_eq_iff_opcodeOf_operandSlots (w w' : CommandWord) {n : Nat} (hn : n ≤ 6) :
    w.setWidth (8 + 16 * n) = w'.setWidth (8 + 16 * n) ↔
      opcodeOf w = opcodeOf w' ∧ (operandSlots w).take n = (operandSlots w').take n := by
  simp only [operandSlots, ← List.map_take, List.take_range, min_eq_left hn, List.map_inj_left, List.mem_range]
  clear hn
  induction n with
  | zero => simp [opcodeOf, BitVec.setWidth_eq_extractLsb']
  | succ n ih => rw [Nat.mul_succ, ← Nat.add_assoc, setWidth_add_eq_iff, ih, and_assoc, Nat.forall_lt_succ_right]

theorem Instr.arity_le (i : Instr) : i.arity ≤ 6 := by
  cases i <;> simp [Instr.arity]

@[simp] theorem opcodeOf_encode (i : Instr) : opcodeOf (encode i) = i.opcode := by
  cases i <;> exact opcodeOf_packCommand _ _ _ _ _ _ _

/-- A word selects only an operation of its own opcode. -/
theorem opcodeOf_of_decodeWord {w : CommandWord} {i : Instr} (h : decodeWord w = .ok i) : opcodeOf w = i.opcode := by
  unfold decodeWord at h
  split at h <;> cases h <;> exact BitVec.eq_of_toNat_eq ‹_›

/-- A word selects an operation exactly when it agrees with what the encoder writes on the opcode and on the named slots. -/
theorem decodeWord_eq_ok_iff {w : CommandWord} {i : Instr} :
    decodeWord w = .ok i ↔ w.setWidth (8 + 16 * i.arity) = (encode i).setWidth (8 + 16 * i.arity) := by
  rw [setWidth_eq_iff_opcodeOf_operandSlots _ _ i.arity_le, opcodeOf_encode]
  by_cases hop : opcodeOf w = i.opcode
  · cases i <;> simp [decodeWord, hop, Instr.opcode, encode, Instr.arity, operandSlots_eq]
  · exact iff_of_false (fun h => hop (opcodeOf_of_decodeWord h)) (fun h => hop h.1)

@[simp] theorem decodeWord_encode (i : Instr) : decodeWord (encode i) = .ok i := decodeWord_eq_ok_iff.2 rfl

/-- Settles O1: the word by `decodeWord_encode`, its bytes by `decode_commandBytes_append`. -/
theorem decodeOfEncodeIsIdentity : Obligations.DecodeOfEncodeIsIdentity :=
  fun i rest => ⟨decodeWord_encode i, decode_commandBytes_append (decodeWord_encode i) rest⟩

/-- The encoder writes zero in the slots above the last one the operation names. -/
theorem encode_ushiftRight_eq_zero (i : Instr) : encode i >>> (8 + 16 * i.arity) = 0 := by
  apply BitVec.eq_of_toNat_eq
  rw [BitVec.toNat_ushiftRight, Nat.shiftRight_eq_div_pow]
  cases i <;> simp only [encode, Instr.arity, packCommand_toNat, BitVec.ofNat_eq_ofNat, BitVec.toNat_ofNat] <;> omega

/-- A step runs the operation of its next word on the state in which the words after it are still to present. -/
theorem step_withCommands_ok (s : State) {w : CommandWord} (rest : List CommandWord) {i : Instr}
    (hw : decodeWord w = .ok i) : step (s.withCommands (w :: rest)) = exec i (s.withCommands rest) :=
  step_ok (State.withCommands_commands s (w :: rest)) hw

/-- Settles O2: by `decodeWord_eq_ok_iff` both words are compared with the same encoded word; a step sees its next word through the
operation it selects. -/
theorem unnamedSlotsAreIgnored : Obligations.UnnamedSlotsAreIgnored := by
  have same {w w' : CommandWord} {i : Instr} (hw : decodeWord w = .ok i) :
      decodeWord w' = .ok i ↔ w'.setWidth (8 + 16 * i.arity) = w.setWidth (8 + 16 * i.arity) := by
    rw [decodeWord_eq_ok_iff, decodeWord_eq_ok_iff.1 hw]
  refine ⟨fun w w' i hw => same hw, fun w w' i s rest hw hagree => ?_, encode_ushiftRight_eq_zero⟩
  rw [step_withCommands_ok s rest hw, step_withCommands_ok s rest ((same hw).2 hagree)]

theorem Instr.opcode_mem_definedOpcodes (i : Instr) : i.opcode ∈ definedOpcodes := by
  cases i <;> simp [Instr.opcode, definedOpcodes]

/-- Rules R63, R66: a word selects an operation exactly when its opcode is one of the 18. -/
theorem exists_decodeWord_eq_ok_iff {w : CommandWord} :
    (∃ i, decodeWord w = .ok i) ↔ opcodeOf w ∈ definedOpcodes := by
  constructor
  · rintro ⟨i, hi⟩
    rw [opcodeOf_of_decodeWord hi]
    exact i.opcode_mem_definedOpcodes
  · have selects : ∀ op ∈ definedOpcodes, opcodeOf w = op → ∃ i, decodeWord w = .ok i := by
      simp +contextual [definedOpcodes, decodeWord]
    exact fun h => selects _ h rfl

/-- Settles O3: the count by evaluation; a reserved opcode leaves the decoder no operation, so the step refuses; any other selects one
of its own opcode. -/
theorem reservedOpcodesAreRefused : Obligations.ReservedOpcodesAreRefused := by
  refine ⟨by decide +kernel, fun s w rest hs hop => ?_, fun w hop => ?_⟩
  · cases hw : decodeWord w with
    | error e => exact step_reserved hs hw
    | ok i => exact absurd (exists_decodeWord_eq_ok_iff.1 ⟨i, hw⟩) hop
  · obtain ⟨i, hi⟩ := exists_decodeWord_eq_ok_iff.2 hop
    exact ⟨i, hi, (opcodeOf_of_decodeWord hi).symm⟩

/-- Settles O4: five closed words, by evaluation. -/
theorem sampleWordsDecode : Obligations.SampleWordsDecode := by
  refine ⟨?_, ?_, ?_, ?_, ?_⟩ <;> decide +kernel

end Sys2Proof
end

section
/-! Operands and pseudo-form of the assembler (rules R69, R70). -/

namespace Sys2Proof

/-- An operand has a slot exactly in -32768..65535, and the slot is the operand modulo 2^16. -/
theorem operandSlot_eq_some_iff {v : Int} {slot : Slot} :
    operandSlot v = some slot ↔ -32768 ≤ v ∧ v ≤ 65535 ∧ (slot.toNat : Int) = v % 65536 := by
  have pattern : BitVec.ofInt 16 v = slot ↔ (slot.toNat : Int) = v % 65536 := by
    rw [← BitVec.toNat_inj, BitVec.toNat_ofInt]; omega
  unfold operandSlot
  split
  · rename_i inRange
    simp [pattern, inRange]
  · rename_i outside
    exact iff_of_false nofun fun ⟨lo, hi, _⟩ => outside ⟨lo, hi⟩

/-- Settles O7: the pseudo-form is the line of `instrOf` that supplies 200, slot `D` is read by the line of the decoder for 0x55. -/
theorem assemblerOperandsAndPseudoForm : Obligations.AssemblerOperandsAndPseudoForm :=
  ⟨fun _ _ _ => rfl, fun w hw => by simp [decodeWord, hw], fun _ _ => operandSlot_eq_some_iff⟩

end Sys2Proof
end

section
/-! The fields of the response word (rule R62). -/

namespace Sys2Proof.Machine

section
variable (n : Nat) (r : Response)

theorem Response.word_getLsbD_zero : (r.word n).getLsbD 0 = r.valid := by
  rw [Response.word, BitVec.getLsbD_append]; simp

theorem Response.word_r0 : (r.word n).extractLsb' 1 16 = r.r0.getD (Config.unspecifiedSlot n 0) := by
  rw [Response.word, BitVec.extractLsb'_append_eq_of_le (by decide), BitVec.extractLsb'_append_eq_right]

theorem Response.word_r1 : (r.word n).extractLsb' 17 16 = r.r1.getD (Config.unspecifiedSlot n 1) := by
  rw [Response.word, BitVec.extractLsb'_append_eq_of_le (by decide), BitVec.extractLsb'_append_eq_of_le (by decide),
    BitVec.extractLsb'_append_eq_right]

theorem Response.word_r2 : (r.word n).extractLsb' 33 16 = r.r2.getD (Config.unspecifiedSlot n 2) := by
  rw [Response.word, BitVec.extractLsb'_append_eq_of_le (by decide), BitVec.extractLsb'_append_eq_of_le (by decide),
    BitVec.extractLsb'_append_eq_left]

end

theorem Response.valid_eq_false_iff {r : Response} : r.valid = false ↔ r = .noProjection := by
  cases r <;> simp [Response.valid]

/-- Settles O6: each slot and the valid bit by its position in the word; a defined slot is the one the word carries. -/
theorem responseWordFields : Obligations.ResponseWordFields := by
  intro n r
  refine ⟨by rw [Response.word_getLsbD_zero, Response.valid_eq_false_iff], fun v hv => ?_, fun v hv => ?_, fun v hv => ?_⟩
  · rw [Response.word_r0, hv, Option.getD_some]
  · rw [Response.word_r1, hv, Option.getD_some]
  · rw [Response.word_r2, hv, Option.getD_some]

end Sys2Proof.Machine
end

section
/-! The host's contract (rule R223): inside it every command completes, and a run answers every command in order (rules R60, R222). -/

namespace Sys2Proof.Machine

/-- Settles O8: it is the case of a decoded command of the step, `step_ok`. -/
theorem stepRunsTheDecodedInstruction : Obligations.StepRunsTheDecodedInstruction :=
  fun _ _ _ _ hs hw => step_ok hs hw

/-- An operation inside the contract of its rule completes. -/
theorem exists_exec_next {i : Instr} (h : i.wellFormed = true) (s : State) : ∃ t, exec i s = .next t := by
  cases i with
  | scraddr x y => obtain ⟨p, hp⟩ := onScreen_eq_true.1 h; exact ⟨_, exec_scraddr_on s hp⟩
  | attraddr col row => obtain ⟨p, hp⟩ := inGrid_eq_true.1 h; exact ⟨_, exec_attraddr_in s hp⟩
  | setattr col row value => obtain ⟨p, hp⟩ := inGrid_eq_true.1 h; exact ⟨_, exec_setattr_in s value hp⟩
  | getattr col row => obtain ⟨p, hp⟩ := inGrid_eq_true.1 h; exact ⟨_, exec_getattr_in s hp⟩
  | project x y z vd =>
    by_cases hd : sext16 z + sext16 vd ≤ 0
    · exact ⟨_, exec_project_fails s hd⟩
    · exact ⟨_, exec_project s (not_le.1 hd)⟩
  | _ => exact ⟨_, rfl⟩

/-- A command keeps the host's duties exactly when it selects an operation inside the contract of its rule. -/
theorem commandInContract_iff {w : CommandWord} :
    commandInContract w = true ↔ ∃ i, decodeWord w = .ok i ∧ i.wellFormed = true := by
  unfold commandInContract
  split <;> simp_all

/-- Settles O58: the command's operation completes, takes nothing from the commands that remain, and answers once. -/
theorem stepKeepsTheContract : Obligations.StepKeepsTheContract := by
  intro s w rest hs hcommands
  obtain ⟨i, hdecode, hwf⟩ := commandInContract_iff.1 (hs w (by simp [hcommands]))
  obtain ⟨t, hexec⟩ := exists_exec_next hwf (s.withCommands rest)
  obtain ⟨-, -, remaining⟩ := exec_next_roms_and_commands hexec
  obtain ⟨r, hr, -⟩ := validBitIsZeroOnlyForNoProjection _ _ _ hexec
  refine ⟨t, r, (step_ok hcommands hdecode).trans hexec, remaining, fun v hv => hs v ?_, hr⟩
  rw [hcommands]
  exact List.mem_cons_of_mem w (by rwa [remaining] at hv)

/-- No operation takes back a frame. -/
theorem exec_next_frames {i : Instr} {s t : State} (h : exec i s = .next t) : s.frames <+: t.frames := by
  by_cases hi : i = .render
  · subst hi; obtain rfl := exec_render_next h; exact List.prefix_append _ _
  · obtain ⟨m, r, rfl, -, -⟩ := exec_next_of_ne_render hi h; exact List.prefix_rfl

/-- No step takes back a frame. -/
theorem step_next_frames {s t : State} (h : step s = .next t) : s.frames <+: t.frames := by
  obtain ⟨-, rfl⟩ | ⟨w, rest, i, -, -, hexec⟩ := step_next_cases h
  · exact List.prefix_rfl
  · simpa using exec_next_frames hexec

/-- `t` is what `n` steps may make of `s`: `n` commands used up, or all of them, each with one response added at the end; the earlier
responses and frames as they were. -/
def State.Progress (s : State) (n : Nat) (t : State) : Prop :=
  t.commands = s.commands.drop n ∧ t.responses.length = s.responses.length + min n s.commands.length ∧
    s.responses <+: t.responses ∧ s.frames <+: t.frames

/-- Inside the contract a run of any length is never refused and answers its commands in order. -/
theorem exists_reaches_progress {s : State} (hs : s.InContract) (n : Nat) : ∃ t, s.Reaches n t ∧ s.Progress n t := by
  induction n generalizing s with
  | zero => exact ⟨s, reaches_zero.2 rfl, rfl, by simp, List.prefix_rfl, List.prefix_rfl⟩
  | succ n ih =>
    cases hc : s.commands with
    | nil =>
      obtain ⟨t, hrun, hcommands, hlength, hresponses, hframes⟩ := ih hs
      exact ⟨t, reaches_succ.2 ⟨s, step_idle hc, hrun⟩, by simpa [hc] using hcommands, by simpa [hc] using hlength,
        hresponses, hframes⟩
    | cons w rest =>
      obtain ⟨u, r, hstep, hrest, hu, hr⟩ := stepKeepsTheContract s w rest hs hc
      obtain ⟨t, hrun, hcommands, hlength, hresponses, hframes⟩ := ih hu
      refine ⟨t, reaches_succ.2 ⟨u, hstep, hrun⟩, by rw [hcommands, hrest, hc, List.drop_succ_cons], ?_,
        (hr ▸ List.prefix_append _ _ : s.responses <+: u.responses).trans hresponses, (step_next_frames hstep).trans hframes⟩
      rw [hlength, hr, hrest, hc, List.length_append, List.length_singleton, List.length_cons]
      omega

/-- Settles O20: `exists_reaches_progress`, once without and once with what it says of the state reached. -/
theorem runsInsideTheContractComplete : Obligations.RunsInsideTheContractComplete := by
  intro s hs
  refine ⟨fun n => ?_, exists_reaches_progress hs⟩
  obtain ⟨t, hrun, -⟩ := exists_reaches_progress hs n
  exact ⟨t, hrun⟩

end Sys2Proof.Machine
end

section
/-! The address translator and the pixel operations (rules R81 to R90). A law of VRAM bits is stated for all integer operands,
on and off the screen. -/

namespace Sys2Proof.Machine

open Sys2Proof.Claims

/-- Rule R85: integer operands are off the screen, or they are the coordinates of one of its points. -/
theorem screenPoint?_cases (x y : Int) :
    screenPoint? x y = none ∨ ∃ (px : Fin 256) (py : Fin 192), x = px.val ∧ y = py.val := by
  cases hp : screenPoint? x y with
  | none => exact .inl rfl
  | some p => exact .inr ⟨p.1, p.2, screenPoint?_eq_some.1 hp⟩

/-! ## SCRADDR and ATTRADDR -/

/-- The concatenation `y[7:6] y[2:0] y[5:3] x[7:3]` of rule R81 as a sum of bit fields. -/
theorem scraddrBits_toNat (x y : Slot) :
    (y.extractLsb' 6 2 ++ y.extractLsb' 0 3 ++ y.extractLsb' 3 3 ++ x.extractLsb' 3 5).toNat =
      2048 * (y.toNat / 64 % 4) + 256 * (y.toNat % 8) + 32 * (y.toNat / 8 % 8) + x.toNat / 8 % 32 := by
  have hline := (y.extractLsb' 0 3).isLt
  have hrow := (y.extractLsb' 3 3).isLt
  have hcol := (x.extractLsb' 3 5).isLt
  simp only [BitVec.toNat_append]
  rw [← Nat.shiftLeft_add_eq_or_of_lt hline, ← Nat.shiftLeft_add_eq_or_of_lt hrow, ← Nat.shiftLeft_add_eq_or_of_lt hcol]
  simp only [BitVec.extractLsb'_toNat, Nat.shiftRight_eq_div_pow, Nat.shiftLeft_eq]
  omega

/-- A slot that holds a natural number as its signed reading holds it as its unsigned one. -/
theorem toNat_of_sext16_eq_natCast {s : Slot} {n : Nat} (h : sext16 s = n) : s.toNat = n := by
  rw [sext16, BitVec.toInt_eq_toNat_cond] at h
  have := s.isLt
  split at h <;> omega

/-- On the screen the offset of the translator is the concatenation of rule R81. -/
theorem zeroExtended_scrAddr {x y : Slot} {px : Fin 256} {py : Fin 192} (hx : sext16 x = px.val)
    (hy : sext16 y = py.val) : zeroExtended (scrAddr px py).val =
      (y.extractLsb' 6 2 ++ y.extractLsb' 0 3 ++ y.extractLsb' 3 3 ++ x.extractLsb' 3 5).setWidth 16 := by
  have third : py.val / 64 % 4 = py.val / 64 := by omega
  have col : px.val / 8 % 32 = px.val / 8 := by omega
  rw [zeroExtended, scrAddr_val, ← BitVec.ofNat_toNat, scraddrBits_toNat, toNat_of_sext16_eq_natCast hx,
    toNat_of_sext16_eq_natCast hy, third, col]

/-- Settles O25: the answer is the translator's offset, whose bits are those of `zeroExtended_scrAddr`. -/
theorem scraddrAnswersTheOffset : Obligations.ScraddrAnswersTheOffset := by
  refine fun x y s => ⟨fun hon => ?_, fun hoff => exec_scraddr_off s (onScreen_eq_false.1 hoff)⟩
  obtain ⟨⟨px, py⟩, hp⟩ := onScreen_eq_true.1 hon
  obtain ⟨hx, hy⟩ := screenPoint?_eq_some.1 hp
  rw [exec_scraddr_on s hp, zeroExtended_scrAddr hx hy]

/-- Settles O26: the answer is the cell's offset, which is below 6912 and so fits its slot. -/
theorem attraddrAnswersTheOffset : Obligations.AttraddrAnswersTheOffset := by
  refine fun col row s => ⟨fun hin => ?_, fun hout => exec_attraddr_out s (inGrid_eq_false.1 hout)⟩
  obtain ⟨⟨c, r⟩, hp⟩ := inGrid_eq_true.1 hin
  obtain ⟨hcol, hrow⟩ := gridCell?_eq_some.1 hp
  refine ⟨_, exec_attraddr_in s hp, ?_⟩
  rw [zeroExtended_toInt ((attrAddr c r).isLt.trans (by decide)), attrAddr_val]
  simp only [sext16] at hcol hrow
  omega

/-! ## The bit of a pixel -/

/-- A point of the screen is held by one bit. -/
theorem pixelBit_natCast {px : Fin 256} {py : Fin 192} {o : Offset} {k : Nat} :
    PixelBit px.val py.val o k ↔ o = scrAddr px py ∧ k = 7 - px.val % 8 := by
  constructor
  · rintro ⟨qx, qy, hx, hy, h⟩
    obtain rfl : px = qx := Fin.ext (mod_cast hx)
    obtain rfl : py = qy := Fin.ext (mod_cast hy)
    exact h
  · exact fun h => ⟨px, py, rfl, rfl, h⟩

/-- A point off the screen is held by no bit. -/
theorem not_pixelBit_of_off {x y : Int} {o : Offset} {k : Nat} (h : screenPoint? x y = none) : ¬ PixelBit x y o k := by
  rintro ⟨px, py, rfl, rfl, -⟩
  simp at h

/-- Rule R86: the bits set after `PLOT` are those set before and the one that holds the pixel. -/
theorem read_plot_getLsbD_iff (m : Memory) (x y : Int) (o : Offset) (k : Nat) :
    ((plot m x y).read o).getLsbD k = true ↔ (m.read o).getLsbD k = true ∨ PixelBit x y o k := by
  obtain off | ⟨px, py, rfl, rfl⟩ := screenPoint?_cases x y
  · simp [plot_off off, not_pixelBit_of_off off]
  · simp [read_plot_getLsbD, pixelBit_natCast]

/-- Rule R88: the bits set after the pixel-clear are those set before but the one that holds the pixel. -/
theorem read_unplot_getLsbD_iff (m : Memory) (x y : Int) (o : Offset) (k : Nat) :
    ((unplot m x y).read o).getLsbD k = true ↔ (m.read o).getLsbD k = true ∧ ¬ PixelBit x y o k := by
  obtain off | ⟨px, py, rfl, rfl⟩ := screenPoint?_cases x y
  · simp [unplot_off off, not_pixelBit_of_off off]
  · simp only [read_unplot_getLsbD, pixelBit_natCast, Bool.and_eq_true, Bool.not_eq_true', decide_eq_false_iff_not]

/-- Rule R89: the pixel query answers 0 or 1. -/
theorem pixelAt_eq_zero_or_one (m : Memory) (x y : Int) : pixelAt m x y = 0 ∨ pixelAt m x y = 1 := by
  obtain off | ⟨px, py, rfl, rfl⟩ := screenPoint?_cases x y
  · exact .inl (pixelAt_off off)
  · rw [pixelAt_eq]; split <;> simp

/-- Rule R89: the pixel query answers 1 exactly when some bit holds the pixel and is set. -/
theorem pixelAt_eq_one_iff (m : Memory) (x y : Int) :
    pixelAt m x y = 1 ↔ ∃ (o : Offset) (k : Nat), PixelBit x y o k ∧ (m.read o).getLsbD k = true := by
  obtain off | ⟨px, py, rfl, rfl⟩ := screenPoint?_cases x y
  · simp [pixelAt_off off, not_pixelBit_of_off off]
  · simp [pixelAt_eq, pixelBit_natCast, and_assoc]

/-! ## SETPIXEL, CLRPIXEL and GETPIXEL -/

/-- An operation that puts another VRAM in place and answers changes nothing else. -/
theorem onlyVramAndResponse_withVram_answer (s : State) (m : Memory) (r : Response) :
    OnlyVramAndResponse s ((s.withVram m).answer r) r :=
  ⟨rfl, rfl, rfl, rfl, rfl, rfl⟩

/-- Settles O27: the VRAM put in place is that of `PLOT`, bit by bit `read_plot_getLsbD_iff`. -/
theorem setpixelSetsOneBit : Obligations.SetpixelSetsOneBit :=
  fun x y s => ⟨_, exec_setpixel s x y, onlyVramAndResponse_withVram_answer _ _ _,
    fun hoff => plot_off (onScreen_eq_false.1 hoff), read_plot_getLsbD_iff s.vram (sext16 x) (sext16 y)⟩

/-- Settles O28: the VRAM put in place is that of the pixel-clear, bit by bit `read_unplot_getLsbD_iff`. -/
theorem clrpixelClearsOneBit : Obligations.ClrpixelClearsOneBit :=
  fun x y s => ⟨_, exec_clrpixel s x y, onlyVramAndResponse_withVram_answer _ _ _,
    fun hoff => unplot_off (onScreen_eq_false.1 hoff), read_unplot_getLsbD_iff s.vram (sext16 x) (sext16 y)⟩

/-- Settles O29: the answer is the pixel query's 0 or 1, and `pixelAt_eq_one_iff` says when it is 1. -/
theorem getpixelAnswersTheBit : Obligations.GetpixelAnswersTheBit := by
  intro x y s
  refine ⟨_, exec_getpixel s x y, ?_⟩
  have one_iff : pixelAt s.vram (sext16 x) (sext16 y) = 1 ↔ ∃ o k, PixelBit x.toInt y.toInt o k ∧ _ :=
    pixelAt_eq_one_iff s.vram (sext16 x) (sext16 y)
  rw [← one_iff]
  obtain h | h := pixelAt_eq_zero_or_one s.vram (sext16 x) (sext16 y)
  · rw [h]; decide
  · rw [h]; decide

/-! ## Independence of pixels (rule R90, laws 1 and 2) -/

/-- A bit of VRAM holds at most one pixel. -/
theorem pixelBit_operands_eq {x y x' y' : Int} {o : Offset} {k : Nat} (h : PixelBit x y o k) (h' : PixelBit x' y' o k) :
    (x', y') = (x, y) := by
  obtain ⟨px, py, rfl, rfl, ho, hk⟩ := h
  obtain ⟨qx, qy, rfl, rfl, ho', hk'⟩ := h'
  by_contra hne
  exact pixelBit_ne px py (by rintro ⟨⟩; exact hne rfl) ⟨ho'.symm.trans ho, hk'.symm.trans hk⟩

/-- The pixel query reads only the bit that holds the pixel. -/
theorem pixelAt_congr {m m' : Memory} {x y : Int}
    (h : ∀ o k, PixelBit x y o k → ((m'.read o).getLsbD k = true ↔ (m.read o).getLsbD k = true)) :
    pixelAt m' x y = pixelAt m x y := by
  obtain off | ⟨px, py, rfl, rfl⟩ := screenPoint?_cases x y
  · rw [pixelAt_off off, pixelAt_off off]
  · simp only [pixelAt_eq, h _ _ (pixelBit_natCast.2 ⟨rfl, rfl⟩)]

/-- Setting a pixel leaves the query of every other operand pair as it was. -/
theorem pixelAt_plot_of_ne (m : Memory) {x y x' y' : Int} (h : (x', y') ≠ (x, y)) :
    pixelAt (plot m x y) x' y' = pixelAt m x' y' := by
  refine pixelAt_congr fun o k bit' => (read_plot_getLsbD_iff m x y o k).trans (or_iff_left fun bit => ?_)
  exact h (pixelBit_operands_eq bit bit')

/-- Clearing a pixel leaves the query of every other operand pair as it was. -/
theorem pixelAt_unplot_of_ne (m : Memory) {x y x' y' : Int} (h : (x', y') ≠ (x, y)) :
    pixelAt (unplot m x y) x' y' = pixelAt m x' y' := by
  refine pixelAt_congr fun o k bit' => (read_unplot_getLsbD_iff m x y o k).trans (and_iff_left fun bit => ?_)
  exact h (pixelBit_operands_eq bit bit')

/-- On the screen and off it, a pixel just cleared reads 0. -/
theorem pixelAt_unplot_same (m : Memory) (x y : Int) : pixelAt (unplot m x y) x y = 0 := by
  obtain off | ⟨px, py, rfl, rfl⟩ := screenPoint?_cases x y
  · exact pixelAt_off off
  · exact pixelAt_unplot_self m px py

/-- On the screen, a pixel just set reads 1. -/
theorem pixelAt_plot_same_of_onScreen (m : Memory) {x y : Slot} (h : onScreen x y = true) :
    pixelAt (plot m (sext16 x) (sext16 y)) (sext16 x) (sext16 y) = 1 := by
  obtain ⟨⟨px, py⟩, hp⟩ := onScreen_eq_true.1 h
  obtain ⟨hx, hy⟩ := screenPoint?_eq_some.1 hp
  rw [hx, hy, pixelAt_plot_self]

/-- GETPIXEL answers `v` exactly when the pixel query, in its slot, is `v`. -/
theorem exec_getpixel_eq_iff {s : State} {x y v : Slot} :
    exec (.getpixel x y) s = .next (s.answer (.value v)) ↔
      zeroExtended (pixelAt s.vram (sext16 x) (sext16 y)) = v := by
  rw [exec_getpixel]
  refine ⟨fun h => ?_, fun h => by rw [h]⟩
  have sameResponses := congrArg State.responses (Host.Outcome.next.inj h)
  simpa using sameResponses

/-- Settles O30: each answer is the query of the pixel in the VRAM that SETPIXEL or CLRPIXEL put in place. -/
theorem pixelsAreIndependent : Obligations.PixelsAreIndependent := by
  intro x y x' y' s t u ht hu
  obtain rfl := Host.Outcome.next.inj ((exec_setpixel s x y).symm.trans ht)
  obtain rfl := Host.Outcome.next.inj ((exec_clrpixel s x y).symm.trans hu)
  simp only [exec_getpixel_eq_iff, State.answer_vram, State.withVram_vram]
  refine ⟨fun hon => by rw [pixelAt_plot_same_of_onScreen _ hon]; rfl, by rw [pixelAt_unplot_same]; rfl, fun hne v hv => ?_⟩
  have operandsDiffer : (sext16 x', sext16 y') ≠ (sext16 x, sext16 y) := by
    simpa [sext16, BitVec.toInt_inj] using hne
  rw [pixelAt_plot_of_ne _ operandsDiffer, pixelAt_unplot_of_ne _ operandsDiffer]
  exact ⟨hv, hv⟩

end Sys2Proof.Machine
end

section
/-! SETATTR, GETATTR, MAKEATTR and the fills (rules R47, R100 to R106): the packed byte and its fields, the cell of the grid and its
byte, the two fills, and that pixels and attributes do not disturb each other. -/

namespace Sys2Proof.Machine

open Sys2Proof.Claims

/-! ## Narrowed operands and results -/

/-- Rule R64: the low byte of a slot as its unsigned value mod 256. -/
theorem zext8_eq (s : Slot) : zext8 s = BitVec.ofNat 8 (s.toNat % 256) :=
  BitVec.eq_of_toNat_eq (by simp [zext8])

/-- Rule R64: the low 3 bits of a slot as its unsigned value mod 8. -/
theorem zext3_toNat (s : Slot) : (zext3 s).toNat = s.toNat % 8 := BitVec.toNat_setWidth 3 s

/-- Rule R64: a flag operand is true exactly when its signed reading is not zero. -/
theorem boolOf_eq_true {s : Slot} : boolOf s = true ↔ s.toInt ≠ 0 := bne_iff_ne

/-- Rule R62: a byte in a result slot is zero-extended. -/
theorem zeroExtended_byte (b : Byte) : zeroExtended b.toNat = b.setWidth 16 := BitVec.ofNat_toNat 16 b

/-! ## The packed byte of a cell (rules R47, R102, R103) -/

/-- Rule R102: the packed byte as a sum of bit fields. -/
theorem packAttr_toNat (f : AttrFields) : (packAttr f).toNat =
    (if f.flash then 128 else 0) + (if f.bright then 64 else 0) + 8 * f.paper.toNat + f.ink.toNat := by
  have fields : ∀ (ink paper : BitVec 3) (bright flash : Bool), (packAttr ⟨ink, paper, bright, flash⟩).toNat =
      (if flash then 128 else 0) + (if bright then 64 else 0) + 8 * paper.toNat + ink.toNat := by decide +kernel
  exact fields f.ink f.paper f.bright f.flash

section
variable (b : Byte)

/-- A mask of three ones before a cut to 3 bits changes nothing. -/
theorem setWidth_and_seven : (b &&& 7#8).setWidth 3 = b.setWidth 3 := by
  rw [BitVec.setWidth_and]; exact BitVec.and_allOnes

/-- A byte shifted right and cut to one bit is that bit, as a byte. -/
theorem ushiftRight_and_one (k : Nat) : (b >>> k) &&& 1#8 = (BitVec.ofBool (b.getLsbD k)).setWidth 8 := by
  rw [BitVec.and_one_eq_setWidth_ofBool_getLsbD, BitVec.getLsbD_ushiftRight, Nat.add_zero]

/-- A bit, as a byte, is non-zero exactly when it is set. -/
theorem setWidth_ofBool_bne_zero : ∀ v : Bool, ((BitVec.ofBool v).setWidth 8 != 0#8) = v := by decide

/-- A bit, as a byte, is 1 exactly when it is set. -/
theorem setWidth_ofBool_eq_one : ∀ v : Bool, (BitVec.ofBool v).setWidth 8 = 1#8 ↔ v = true := by decide

/-- Rule R47: ink is bits 2:0, paper bits 5:3, bright bit 6 and flash bit 7. -/
theorem decodeAttr_eq : decodeAttr b = ⟨b.setWidth 3, (b >>> 3).setWidth 3, b.getLsbD 6, b.getLsbD 7⟩ := by
  simp only [decodeAttr, setWidth_and_seven, ushiftRight_and_one, setWidth_ofBool_bne_zero]

theorem decodeAttr_ink_toNat : (decodeAttr b).ink.toNat = b.toNat % 8 := by
  rw [decodeAttr_eq, BitVec.toNat_setWidth]

theorem decodeAttr_paper_toNat : (decodeAttr b).paper.toNat = b.toNat / 8 % 8 := by
  simp only [decodeAttr_eq, BitVec.toNat_setWidth, BitVec.toNat_ushiftRight, Nat.shiftRight_eq_div_pow]

theorem decodeAttr_bright : (decodeAttr b).bright = b.getLsbD 6 := by rw [decodeAttr_eq]

theorem decodeAttr_flash : (decodeAttr b).flash = b.getLsbD 7 := by rw [decodeAttr_eq]

/-- Rule R103: packing the decoded fields of a byte gives the byte back. -/
theorem packAttr_decodeAttr : packAttr (decodeAttr b) = b := by
  have hb := b.isLt
  apply BitVec.eq_of_toNat_eq
  rw [packAttr_toNat, decodeAttr_ink_toNat, decodeAttr_paper_toNat, decodeAttr_bright, decodeAttr_flash,
    BitVec.getLsbD, BitVec.getLsbD]
  simp only [Nat.testBit_eq_decide_div_mod_eq, decide_eq_true_eq]
  split <;> split <;> omega

end

/-- Rule R103: decoding a packed byte gives its fields back. -/
theorem decodeAttr_packAttr (f : AttrFields) : decodeAttr (packAttr f) = f := by
  have fields : ∀ (ink paper : BitVec 3) (bright flash : Bool),
      decodeAttr (packAttr ⟨ink, paper, bright, flash⟩) = ⟨ink, paper, bright, flash⟩ := by decide +kernel
  exact fields f.ink f.paper f.bright f.flash

/-- Settles O33: the answer is the packed byte, whose fields are the narrowed operands. -/
theorem makeattrPacksTheFields : Obligations.MakeattrPacksTheFields := by
  refine fun ink paper bright flash s => ⟨_, exec_makeattr s ink paper bright flash, ?_⟩
  rw [zeroExtended_toNat ((BitVec.isLt _).trans (by decide)), packAttr_toNat]
  simp only [zext3_toNat, boolOf_eq_true]

/-- Settles O34: the decode by its four bit fields, and the two inverses `packAttr_decodeAttr` and `decodeAttr_packAttr`. -/
theorem attributeDecodeInvertsMakeattr : Obligations.AttributeDecodeInvertsMakeattr := by
  refine ⟨fun b => ⟨decodeAttr_ink_toNat b, decodeAttr_paper_toNat b, decodeAttr_bright b, decodeAttr_flash b,
    packAttr_decodeAttr b⟩, fun ink paper bright flash s => ⟨_, exec_makeattr s ink paper bright flash, ?_⟩⟩
  have lowByte_answer (b : Byte) : (zeroExtended b.toNat).setWidth 8 = b := by
    rw [zeroExtended_byte, BitVec.setWidth_setWidth_of_le _ (by decide), BitVec.setWidth_eq]
  have flag_iff (s : Slot) : boolOf s = true ↔ s ≠ 0 := by
    rw [boolOf_eq_true, Ne, Ne, ← BitVec.toInt_inj]; rfl
  rw [lowByte_answer, decodeAttr_packAttr]
  exact ⟨zext3_toNat ink, zext3_toNat paper, flag_iff bright, flag_iff flash⟩

/-! ## SETATTR and GETATTR -/

/-- Rules R46, R82: operands inside the grid are a cell, whose byte stands at `6144 + row*32 + col`. -/
theorem exists_gridCell_of_inGrid {col row : Slot} (h : inGrid col row = true) :
    ∃ c r, gridCell? (sext16 col) (sext16 row) = some (c, r) ∧
      ((attrAddr c r).val : Int) = 6144 + row.toInt * 32 + col.toInt := by
  obtain ⟨⟨c, r⟩, hp⟩ := inGrid_eq_true.1 h
  obtain ⟨hcol, hrow⟩ := gridCell?_eq_some.1 hp
  refine ⟨c, r, hp, ?_⟩
  rw [attrAddr_val, ← sext16, ← sext16, hcol, hrow]
  push_cast; ring

/-- Settles O31: in the grid SETATTR is one write of VRAM, at the cell's byte. -/
theorem setattrStoresOneByte : Obligations.SetattrStoresOneByte := by
  refine fun col row value s => ⟨fun hin => ?_, fun hout => exec_setattr_out s value (inGrid_eq_false.1 hout)⟩
  obtain ⟨c, r, hp, haddr⟩ := exists_gridCell_of_inGrid hin
  refine ⟨_, exec_setattr_in s value hp, onlyVramAndResponse_withVram_answer _ _ _, fun o => ?_⟩
  simp only [← haddr, Nat.cast_inj, ← zext8_eq, ← Fin.ext_iff]
  exact Memory.read_write s.vram _ o _

/-- Settles O32: in the grid GETATTR answers the cell's byte. -/
theorem getattrAnswersTheByte : Obligations.GetattrAnswersTheByte := by
  refine fun col row s => ⟨fun hin => ?_, fun hout => exec_getattr_out s (inGrid_eq_false.1 hout)⟩
  obtain ⟨c, r, hp, haddr⟩ := exists_gridCell_of_inGrid hin
  exact ⟨attrAddr c r, haddr, by rw [exec_getattr_in s hp, zeroExtended_byte]⟩

/-- GETATTR answers `v` exactly when its operands are a cell whose byte, zero-extended, is `v`. -/
theorem exec_getattr_eq_iff {s : State} {col row v : Slot} :
    exec (.getattr col row) s = .next (s.answer (.value v)) ↔
      ∃ c r, gridCell? (sext16 col) (sext16 row) = some (c, r) ∧ zeroExtended (s.vram.read (attrAddr c r)).toNat = v := by
  constructor
  · intro h
    cases hp : gridCell? (sext16 col) (sext16 row) with
    | none => cases (exec_getattr_out s hp).symm.trans h
    | some p =>
      have sameResponses := congrArg State.responses (Host.Outcome.next.inj ((exec_getattr_in s hp).symm.trans h))
      exact ⟨p.1, p.2, rfl, by simpa using sameResponses⟩
  · rintro ⟨c, r, hp, rfl⟩
    exact exec_getattr_in s hp

/-! ## CLS and FILLATTR -/

/-- Rule R104: after the fill of CLS every byte reads 0. -/
theorem read_clear (m : Memory) (o : Offset) : (m.fill 0 Config.vramSize 0).read o = 0 := by
  rw [Memory.read_fill, if_pos]
  exact ⟨Nat.zero_le _, by rw [Nat.zero_add]; exact o.isLt⟩

/-- Rule R105: after the fill of FILLATTR the bytes from 6144 on read the value, and the others read as before. -/
theorem read_fill_attributes (m : Memory) (v : Byte) (o : Offset) :
    (m.fill Config.attrBase Config.attrSize v).read o = if 6144 ≤ o.val then v else m.read o := by
  rw [Memory.read_fill]
  exact if_congr (and_iff_left o.isLt) rfl rfl

/-- Rule R124: the colour index of a pixel is the ink or the paper of its cell, by the pixel's bit. -/
theorem renderFrame_index (m : Memory) (palette : Vector Rgb 16) (phase : Bool) (x : Fin 256) (y : Fin 192) :
    (renderFrame m palette phase).indices[y][x] =
      if (m.read (scrAddr x y)).getLsbD (7 - x.val % 8) then
        (cellColours (m.read (attrAddr ⟨x.val / 8, by omega⟩ ⟨y.val / 8, by omega⟩)) phase).1
      else (cellColours (m.read (attrAddr ⟨x.val / 8, by omega⟩ ⟨y.val / 8, by omega⟩)) phase).2 := by
  have sameByte : scrAddr ⟨8 * (x.val / 8), by omega⟩ y = scrAddr x y := scrAddr_eq_iff.2 ⟨by dsimp only; omega, rfl⟩
  have cellRow : y.val >>> 3 = y.val / 8 := Nat.shiftRight_eq_div_pow y.val 3
  simp [renderFrame, indexPlane, scanline, sameByte, cellRow, ushiftRight_and_one, setWidth_ofBool_eq_one]

/-- Rules R122, R123: both colours of a cell whose packed byte is 0 are 0, in both phases. -/
theorem cellColours_zero : ∀ phase : Bool, cellColours 0 phase = (0, 0) := by decide

/-- Settles O35: every byte reads 0 after the fill, and GETPIXEL, GETATTR and RENDER read nothing but bytes. -/
theorem clsZeroFills : Obligations.ClsZeroFills := by
  intro s
  refine ⟨_, exec_cls s, onlyVramAndResponse_withVram_answer _ _ _, read_clear s.vram, fun x y => ?_,
    fun col row hin => ?_, fun phase x y => ?_⟩
  · exact exec_getpixel_eq_iff.2 (congrArg zeroExtended (pixelAt_clear s.vram _ _))
  · obtain ⟨c, r, hp, -⟩ := exists_gridCell_of_inGrid hin
    exact exec_getattr_eq_iff.2 ⟨c, r, hp, congrArg (fun b : Byte => zeroExtended b.toNat) (read_clear s.vram _)⟩
  · simp only [State.answer_vram, State.withVram_vram, renderFrame_index, read_clear, cellColours_zero, ite_self]

/-- Settles O36: FILLATTR is one fill, of the offsets from 6144 on. -/
theorem fillattrFillsTheAttributeRegion : Obligations.FillattrFillsTheAttributeRegion := by
  refine fun value s => ⟨_, exec_fillattr s value, onlyVramAndResponse_withVram_answer _ _ _, fun o => ?_⟩
  rw [← zext8_eq]
  exact read_fill_attributes s.vram (zext8 value) o

/-! ## Pixels and attributes (rule R106) -/

/-- The byte that holds a pixel is in the pixel region. -/
theorem pixelBit_lt {x y : Int} {o : Offset} {k : Nat} (h : PixelBit x y o k) : o.val < 6144 := by
  obtain ⟨px, py, -, -, rfl, -⟩ := h
  exact scrAddr_lt px py

/-- An operation that writes only from offset 6144 on changes no answer of GETPIXEL. -/
theorem exec_getpixel_of_writesAttributesOnly {i : Instr} {s t : State} (hi : writesAttributesOnly i)
    (h : exec i s = .next t) {x y v : Slot} (before : exec (.getpixel x y) s = .next (s.answer (.value v))) :
    exec (.getpixel x y) t = .next (t.answer (.value v)) := by
  have samePixel : pixelAt t.vram (sext16 x) (sext16 y) = pixelAt s.vram (sext16 x) (sext16 y) :=
    pixelAt_congr fun o k bit => by rw [exec_next_read_pixel hi h (pixelBit_lt bit)]
  rw [exec_getpixel_eq_iff] at before ⊢
  rw [samePixel, before]

/-- An operation that writes only below offset 6144 changes no answer of GETATTR. -/
theorem exec_getattr_of_writesPixelsOnly {i : Instr} {s t : State} (hi : writesPixelsOnly i)
    (h : exec i s = .next t) {col row v : Slot} (before : exec (.getattr col row) s = .next (s.answer (.value v))) :
    exec (.getattr col row) t = .next (t.answer (.value v)) := by
  obtain ⟨c, r, hp, hv⟩ := exec_getattr_eq_iff.1 before
  exact exec_getattr_eq_iff.2 ⟨c, r, hp, by rw [exec_next_read_attribute hi h (attrAddr_ge c r), hv]⟩

/-- Settles O37: FILLATTR writes only from offset 6144 on; SETPIXEL, CLRPIXEL and DRAWLINE write only below it. -/
theorem pixelsAndAttributesDoNotDisturbEachOther : Obligations.PixelsAndAttributesDoNotDisturbEachOther := by
  refine fun i s t h => ⟨?_, fun hi => ?_⟩
  · rintro value rfl x y v before
    exact exec_getpixel_of_writesAttributesOnly (i := .fillattr value) trivial h before
  · have pixelsOnly : writesPixelsOnly i := by
      obtain ⟨x, y, rfl | rfl⟩ | ⟨a, b, c, d, rfl⟩ := hi <;> trivial
    exact fun col row v before => exec_getattr_of_writesPixelsOnly pixelsOnly h before

end Sys2Proof.Machine
end

section
/-! RENDER and the flash counter (rules R120 to R131): the pixels of a frame, which cells the phase can change, the phase of the RENDER
numbered `k`, and the linear layout and the up-scaled image, which both concatenate blocks of one length. -/

namespace Sys2Proof.Machine

/-! ## The pixels of a frame (rules R122 to R125) -/

/-- Rule R122: a bright colour is 8 more; no 3-bit colour overflows the index. -/
theorem brightened_toNat (bright : Bool) (c : BitVec 3) :
    (brightened bright c).toNat = c.toNat + if bright then 8 else 0 := by
  have hc := c.isLt
  rw [brightened, BitVec.toNat_ofNat]
  split <;> omega

/-- Rules R122, R123: the ink and paper of a cell as numbers, exchanged when the phase is 1 and the cell flashes. -/
theorem cellColours_toNat (attr : Byte) (phase : Bool) :
    let ink := attr.toNat % 8 + if attr.getLsbD 6 then 8 else 0
    let paper := attr.toNat / 8 % 8 + if attr.getLsbD 6 then 8 else 0
    let swapped := phase && attr.getLsbD 7
    (cellColours attr phase).1.toNat = (if swapped then paper else ink) ∧
      (cellColours attr phase).2.toNat = (if swapped then ink else paper) := by
  simp only [cellColours, decodeAttr_flash]
  split <;> simp only [brightened_toNat, decodeAttr_ink_toNat, decodeAttr_paper_toNat, decodeAttr_bright, and_self]

section
variable (m : Memory) (palette : Vector Rgb 16) (phase : Bool) (x : Fin 256) (y : Fin 192)

/-- Rules R122 to R124: the index of a pixel as a number, by the fields of its cell's attribute. -/
theorem renderFrame_index_toNat :
    let attr := m.read (attrAddr ⟨x.val / 8, by omega⟩ ⟨y.val / 8, by omega⟩)
    let ink := attr.toNat % 8 + if attr.getLsbD 6 then 8 else 0
    let paper := attr.toNat / 8 % 8 + if attr.getLsbD 6 then 8 else 0
    let swapped := phase && attr.getLsbD 7
    (renderFrame m palette phase).indices[y][x].toNat =
      if (m.read (scrAddr x y)).getLsbD (7 - x.val % 8) then (if swapped then paper else ink)
      else (if swapped then ink else paper) := by
  rw [renderFrame_index, apply_ite BitVec.toNat, (cellColours_toNat _ phase).1, (cellColours_toNat _ phase).2]

/-- Rule R125: the components of a pixel are those of its index. -/
theorem renderFrame_pixel : (renderFrame m palette phase).pixels[y][x] =
    colourOf palette (renderFrame m palette phase).indices[y][x] := by
  simp [renderFrame]

end

/-- Settles O39: RENDER emits `renderFrame`, whose pixels are `renderFrame_index_toNat` and `renderFrame_pixel`. -/
theorem renderedPixelsFollowTheCellRules : Obligations.RenderedPixelsFollowTheCellRules :=
  fun s => ⟨_, _, exec_render s, rfl, fun x y =>
    ⟨renderFrame_index_toNat s.vram s.palette (flashPhase s.frame) x y,
      renderFrame_pixel s.vram s.palette (flashPhase s.frame) x y⟩⟩

/-- Settles O41: the phase enters a pixel's index only as "the phase is 1 and the cell flashes", which exchanges ink and paper. -/
theorem onlyFlashingCellsChangeWithThePhase : Obligations.OnlyFlashingCellsChangeWithThePhase := by
  intro m p x y attr
  rw [Ne, ← BitVec.toNat_inj, renderFrame_index_toNat, renderFrame_index_toNat, Bool.true_and, Bool.false_and]
  cases attr.getLsbD 7 with
  | false => simp
  | true => split <;> simp [attr, eq_comm (a := attr.toNat % 8)]

/-! ## The flash counter (rules R121, R127) -/

/-- Settles O38: the fields of RENDER's one outcome. -/
theorem renderEmitsOneFrame : Obligations.RenderEmitsOneFrame :=
  fun s => ⟨_, exec_render s, rfl, BitVec.toNat_add s.frame 1, rfl, rfl, rfl, rfl, rfl⟩

/-- What every step keeps, a run keeps. -/
theorem State.Reaches.induction {P : State → Prop} (step_keeps : ∀ s t, P s → step s = .next t → P t) {s t : State} {n : Nat}
    (hs : P s) (hrun : s.Reaches n t) : P t := by
  induction n generalizing s with
  | zero => exact reaches_zero.1 hrun ▸ hs
  | succ n ih =>
    obtain ⟨u, hstep, hrest⟩ := reaches_succ.1 hrun
    exact ih (step_keeps s u hs hstep) hrest

/-- The counter is the number of frames emitted, mod 64. -/
def State.CountsFrames (s : State) : Prop := s.frame = BitVec.ofNat 6 s.frames.length

/-- RENDER adds one to the counter and one frame; no other operation touches either. -/
theorem exec_next_countsFrames {i : Instr} {s t : State} (hs : s.CountsFrames) (h : exec i s = .next t) : t.CountsFrames := by
  by_cases hi : i = .render
  · subst hi
    obtain rfl := exec_render_next h
    have counted : s.frame + 1 = BitVec.ofNat 6 (s.frames.length + 1) := by rw [hs, BitVec.ofNat_add]; rfl
    simpa [State.CountsFrames] using counted
  · obtain ⟨m, r, rfl, -, -⟩ := exec_next_of_ne_render hi h
    exact hs

theorem step_next_countsFrames (s t : State) (hs : s.CountsFrames) (h : step s = .next t) : t.CountsFrames := by
  obtain ⟨-, rfl⟩ | ⟨w, rest, i, -, -, hexec⟩ := step_next_cases h
  · exact hs
  · exact exec_next_countsFrames (s := s.withCommands rest) hs hexec

/-- Rule R121: bit 5 of a counter that holds `k` mod 64 is set exactly when `k / 32` is odd. -/
theorem flashPhase_ofNat (k : Nat) : flashPhase (BitVec.ofNat 6 k) = decide (k / 32 % 2 = 1) := by
  rw [flashPhase, BitVec.getLsbD_ofNat, Nat.testBit_eq_decide_div_mod_eq, decide_eq_true (by decide : 5 < 6), Bool.true_and]

/-- Settles O40: the counter counts the frames at the start of the run, every step keeps that, and RENDER takes bit 5 of it. -/
theorem flashPhaseTogglesEvery32Frames : Obligations.FlashPhaseTogglesEvery32Frames := by
  intro s t n hframe hframes hrun
  have atStart : s.CountsFrames := by rw [State.CountsFrames, hframe, hframes]; rfl
  have counted : t.frame = BitVec.ofNat 6 t.frames.length := hrun.induction step_next_countsFrames atStart
  exact ⟨_, exec_render t, by simp [← flashPhase_ofNat, ← counted]⟩

/-! ## The linear layout and the up-scaled image (rules R126, R131) -/

section
variable {α β : Type} {f : α → List β} {n : Nat} (hf : ∀ a, (f a).length = n)
include hf

theorem length_flatMap_of_length_eq {k : Nat} (v : Vector α k) : (v.toList.flatMap f).length = k * n := by
  simp [List.length_flatMap, hf]

/-- In a concatenation of blocks of length `n`, entry `n * i + j` is entry `j` of block `i`. -/
theorem getElem?_flatMap_of_length_eq (l : List α) (i : Nat) {j : Nat} (hj : j < n) :
    (l.flatMap f)[n * i + j]? = l[i]?.bind fun a => (f a)[j]? := by
  induction l generalizing i with
  | nil => simp
  | cons a l ih =>
    rw [List.flatMap_cons]
    cases i with
    | zero => rw [List.getElem?_append_left (by rw [hf]; omega)]; simp
    | succ i =>
      have nextBlock : n * (i + 1) + j - n = n * i + j := by rw [Nat.mul_succ]; omega
      rw [List.getElem?_append_right (by rw [hf, Nat.mul_succ]; omega), hf, nextBlock, ih, List.getElem?_cons_succ]

theorem getElem?_vector_flatMap_of_length_eq {k : Nat} (v : Vector α k) (i : Fin k) {j : Nat} (hj : j < n) :
    (v.toList.flatMap f)[n * i.val + j]? = (f v[i])[j]? := by
  rw [getElem?_flatMap_of_length_eq hf v.toList i.val hj]
  simp

end

/-- The bytes of one scanline of a frame. -/
def rowBytes (row : Vector Rgba 256) : List Byte := row.toList.flatMap Rgba.bytes

theorem Frame.bytes_eq_flatMap_rowBytes (f : Frame) : f.bytes = f.pixels.toList.flatMap rowBytes := rfl

theorem Rgba.bytes_length (p : Rgba) : (Rgba.bytes p).length = 4 := rfl

theorem rowBytes_length (row : Vector Rgba 256) : (rowBytes row).length = 1024 :=
  length_flatMap_of_length_eq Rgba.bytes_length row

/-- Rule R126: the four bytes of pixel `(x, y)` stand from `4*(256*y + x)` on. -/
theorem Frame.bytes_getElem? (f : Frame) (x : Fin 256) (y : Fin 192) {j : Nat} (hj : j < 4) :
    f.bytes[4 * (256 * y.val + x.val) + j]? = (Rgba.bytes f.pixels[y][x])[j]? := by
  have offset : 4 * (256 * y.val + x.val) + j = 1024 * y.val + (4 * x.val + j) := by omega
  rw [offset, f.bytes_eq_flatMap_rowBytes, getElem?_vector_flatMap_of_length_eq rowBytes_length f.pixels y (by omega)]
  exact getElem?_vector_flatMap_of_length_eq Rgba.bytes_length f.pixels[y] x hj

/-- Settles O42: 192 scanlines of 1024 bytes, and the four bytes of a pixel by `Frame.bytes_getElem?`. -/
theorem frameByteLayout : Obligations.FrameByteLayout :=
  fun f => ⟨length_flatMap_of_length_eq rowBytes_length f.pixels, fun x y =>
    ⟨f.bytes_getElem? x y (j := 0) (by decide), f.bytes_getElem? x y (j := 1) (by decide),
      f.bytes_getElem? x y (j := 2) (by decide), f.bytes_getElem? x y (j := 3) (by decide)⟩⟩

/-- When every entry is replicated into a block of `n`, entry `i` is the old entry `i / n`. -/
theorem getElem?_flatMap_replicate {α β : Type} {k n : Nat} (v : Vector α k) (g : α → β) (i : Fin (k * n)) :
    (v.toList.flatMap fun a => List.replicate n (g a))[i.val]? =
      some (g (v[i.val / n]'(Nat.div_lt_of_lt_mul (Nat.mul_comm k n ▸ i.isLt)))) := by
  have hn : 0 < n := Nat.pos_of_mul_pos_left (Nat.zero_lt_of_lt i.isLt)
  have hlt : i.val / n < k := Nat.div_lt_of_lt_mul (Nat.mul_comm k n ▸ i.isLt)
  have block := getElem?_vector_flatMap_of_length_eq (f := fun a => List.replicate n (g a))
    (fun _ => List.length_replicate) v ⟨i.val / n, hlt⟩ (Nat.mod_lt i.val hn)
  rw [Nat.div_add_mod] at block
  rw [block, List.getElem?_replicate, if_pos (Nat.mod_lt _ hn)]
  rfl

/-- Settles O43: rows and pixels are both replicated in blocks of `n`, `getElem?_flatMap_replicate` once for each. -/
theorem upscaledFrameReplicatesPixels : Obligations.UpscaledFrameReplicatesPixels := by
  intro f n _
  refine ⟨length_flatMap_of_length_eq (fun _ => List.length_replicate) f.pixels, fun Y X => ⟨_,
    getElem?_flatMap_replicate f.pixels (fun row => row.toList.flatMap fun p => List.replicate n p) Y, ?_, ?_⟩⟩
  · exact length_flatMap_of_length_eq (fun _ => List.length_replicate) _
  · exact getElem?_flatMap_replicate _ (fun p => p) X

end Sys2Proof.Machine
end

section
/-! The line unit (rules R140 to R149): the error-accumulating loops generate the closed form, which has one point per step of its longer
side and stays in the box of its endpoints; and plotting a list of points sets the bits of its points, whatever their order. -/

namespace Sys2Proof.Machine

open Sys2Proof.Claims

/-! ## The error accumulator (rules R143, R144) -/

/-- One pass of a loop: the minor coordinate has advanced by the quotient of the exact slope product, and the accumulator holds its
remainder. When the product `a` grows by `m`, at most the divisor, the conditional step keeps both. -/
theorem errorStep_eq_ediv_emod {α : Type} (loop : Int → Int → α) (a : Int) {m d : Int} (hm : 0 ≤ m) (hmd : m ≤ d)
    (hd : 0 < d) :
    (if a % d + m ≥ d then loop (a / d + 1) (a % d + m - d) else loop (a / d) (a % d + m)) =
      loop ((a + m) / d) ((a + m) % d) := by
  have split_a := Int.emod_add_mul_ediv a d
  have nonneg := Int.emod_nonneg a hd.ne'
  have lt := Int.emod_lt_of_pos a hd
  split
  · obtain ⟨hq, hr⟩ := (Int.ediv_emod_unique (a := a + m) (q := a / d + 1) (r := a % d + m - d) hd).2
      ⟨by rw [Int.mul_add]; omega, by omega, by omega⟩
    rw [hq, hr]
  · obtain ⟨hq, hr⟩ := (Int.ediv_emod_unique (a := a + m) (q := a / d) (r := a % d + m) hd).2
      ⟨by omega, by omega, by omega⟩
    rw [hq, hr]

/-- Point `k` of the horizontal-major branch (rule R146). -/
def horizontalPoint (x0 y0 dx dy sy : Int) (k : Nat) : Int × Int := (x0 + k, y0 + sy * (k * dy / dx))

/-- Point `k` of the vertical-major branch (rule R146). -/
def verticalPoint (x0 y0 dx dy sy : Int) (k : Nat) : Int × Int := (x0 + k * dx / dy, y0 + sy * k)

section
variable (x0 y0 sy : Int) {dx dy : Int}

theorem horizontalPoints_eq_map (hdy : 0 ≤ dy) (hle : dy ≤ dx) (hdx : 0 < dx) (n k : Nat) :
    horizontalPoints dx dy sy n (x0 + k) (y0 + sy * (k * dy / dx)) (k * dy % dx) =
      (List.range' k n).map (horizontalPoint x0 y0 dx dy sy) := by
  induction n generalizing k with
  | zero => rfl
  | succ n ih =>
    have step := errorStep_eq_ediv_emod
      (fun q r => horizontalPoints dx dy sy n (x0 + k + 1) (y0 + sy * q) r) (k * dy) hdy hle hdx
    have rest := ih (k + 1)
    push_cast at rest
    rw [← Int.add_assoc, Int.add_mul, Int.one_mul] at rest
    rw [List.range'_succ, List.map_cons, ← rest, ← step, Int.mul_add, Int.mul_one, ← Int.add_assoc]
    rfl

theorem verticalPoints_eq_map (hdx : 0 ≤ dx) (hle : dx ≤ dy) (hdy : 0 < dy) (n k : Nat) :
    verticalPoints dx dy sy n (x0 + k * dx / dy) (y0 + sy * k) (k * dx % dy) =
      (List.range' k n).map (verticalPoint x0 y0 dx dy sy) := by
  induction n generalizing k with
  | zero => rfl
  | succ n ih =>
    have step := errorStep_eq_ediv_emod
      (fun q r => verticalPoints dx dy sy n (x0 + q) (y0 + sy * k + sy) r) (k * dx) hdx hle hdy
    have rest := ih (k + 1)
    push_cast at rest
    rw [Int.mul_add, Int.mul_one, ← Int.add_assoc, Int.add_mul, Int.one_mul] at rest
    rw [List.range'_succ, List.map_cons, ← rest, ← step, ← Int.add_assoc]
    rfl

end

/-! ## The closed form (rule R146) -/

/-- `dy` of rule R142. -/
def lineHeight (y0 y1 : Int) : Int := max (y1 - y0) (y0 - y1)

/-- `sy` of rule R142. -/
def lineDirection (y0 y1 : Int) : Int := if y0 ≤ y1 then 1 else -1

theorem lineHeight_nonneg (y0 y1 : Int) : 0 ≤ lineHeight y0 y1 := by unfold lineHeight; omega

theorem natAbs_sub_eq_lineHeight (y0 y1 : Int) : ((y1 - y0).natAbs : Int) = lineHeight y0 y1 := by
  unfold lineHeight; omega

/-- The points of rule R146 as one list, for endpoints in the order of rule R141: the single point is a horizontal-major line of
one point. -/
theorem closedFormPoints_eq_map (x0 y0 x1 y1 : Int) : closedFormPoints x0 y0 x1 y1 =
    if lineHeight y0 y1 ≤ x1 - x0 then
      (List.range ((x1 - x0).toNat + 1)).map
        (horizontalPoint x0 y0 (x1 - x0) (lineHeight y0 y1) (lineDirection y0 y1))
    else
      (List.range ((lineHeight y0 y1).toNat + 1)).map
        (verticalPoint x0 y0 (x1 - x0) (lineHeight y0 y1) (lineDirection y0 y1)) := by
  by_cases single : x1 - x0 = 0 ∧ lineHeight y0 y1 = 0
  · obtain ⟨hdx, hdy⟩ := single
    rw [hdx, hdy, if_pos (le_refl _)]
    exact (if_pos ⟨hdx, hdy⟩).trans (by simp [horizontalPoint])
  · exact if_neg single

theorem linePoints_of_le {x0 x1 : Int} (h : x0 ≤ x1) (y0 y1 : Int) :
    linePoints x0 y0 x1 y1 = orderedLinePoints x0 y0 x1 y1 := if_neg (Int.not_lt.2 h)

theorem linePoints_of_lt {x0 x1 : Int} (h : x1 < x0) (y0 y1 : Int) :
    linePoints x0 y0 x1 y1 = orderedLinePoints x1 y1 x0 y0 := if_pos h

theorem orderedLinePoints_eq (x0 y0 x1 y1 : Int) : orderedLinePoints x0 y0 x1 y1 =
    if lineHeight y0 y1 ≤ x1 - x0 then
      horizontalPoints (x1 - x0) (lineHeight y0 y1) (lineDirection y0 y1) ((x1 - x0).toNat + 1) x0 y0 0
    else
      verticalPoints (x1 - x0) (lineHeight y0 y1) (lineDirection y0 y1) ((lineHeight y0 y1).toNat + 1) x0 y0 0 := by
  rw [← natAbs_sub_eq_lineHeight]; rfl

/-- Settles O44: both loops start with nothing accumulated, and each generates the points of its branch. -/
theorem linePointsClosedForm : Obligations.LinePointsClosedForm := by
  intro x0 y0 x1 y1 h
  have hdy := lineHeight_nonneg y0 y1
  rw [linePoints_of_le h, orderedLinePoints_eq, closedFormPoints_eq_map]
  split
  case isTrue horizontal =>
    obtain hdx | hdx := (Int.sub_nonneg.2 h).eq_or_lt
    · simp [← hdx, horizontalPoints, horizontalPoint]
    · simpa [List.range_eq_range'] using
        horizontalPoints_eq_map x0 y0 (lineDirection y0 y1) hdy horizontal hdx ((x1 - x0).toNat + 1) 0
  case isFalse vertical =>
    simpa [List.range_eq_range'] using verticalPoints_eq_map x0 y0 (lineDirection y0 y1) (Int.sub_nonneg.2 h)
      (by omega) (by omega) ((lineHeight y0 y1).toNat + 1) 0

/-! ## Length, endpoints and box (rule R148) -/

/-- The point lies in the bounding box of the two endpoints, the first of which is the left one. -/
def InBox (x0 y0 x1 y1 : Int) (p : Int × Int) : Prop :=
  x0 ≤ p.1 ∧ p.1 ≤ x1 ∧ min y0 y1 ≤ p.2 ∧ p.2 ≤ max y0 y1

/-- At the last step the minor coordinate has advanced by its whole delta (a line of one point included). -/
theorem slopeProduct_last {m d : Int} (hm : 0 ≤ m) (hmd : m ≤ d) : d * m / d = m := by
  by_cases hd : d = 0
  · rw [hd, Int.ediv_zero]; omega
  · exact Int.mul_ediv_cancel_left m hd

/-- The minor coordinate advances by at most its delta. -/
theorem slopeProduct_bounds {m d k : Int} (hm : 0 ≤ m) (hk : 0 ≤ k) (hkd : k ≤ d) : 0 ≤ k * m / d ∧ k * m / d ≤ m := by
  obtain hd | hd := (hk.trans hkd).eq_or_lt
  · rw [← hd, Int.ediv_zero]; omega
  · have product : k * m ≤ m * d := Int.mul_comm d m ▸ Int.mul_le_mul_of_nonneg_right hkd hm
    exact ⟨Int.ediv_nonneg (Int.mul_nonneg hk hm) hd.le, Int.ediv_le_of_le_mul hd product⟩

theorem lineDirection_mul_lineHeight (y0 y1 : Int) : y0 + lineDirection y0 y1 * lineHeight y0 y1 = y1 := by
  unfold lineDirection lineHeight; split <;> omega

/-- A row at most `dy` steps from the first endpoint lies between the two. -/
theorem row_between {y0 y1 j : Int} (hj : 0 ≤ j) (hle : j ≤ lineHeight y0 y1) :
    min y0 y1 ≤ y0 + lineDirection y0 y1 * j ∧ y0 + lineDirection y0 y1 * j ≤ max y0 y1 := by
  unfold lineHeight at hle; unfold lineDirection; split <;> omega

/-- A line is the image of the steps of its longer side; step 0 is the first endpoint, the last step the second, and every step is in
their box. -/
theorem exists_linePoints_eq_map {x0 x1 : Int} (h : x0 ≤ x1) (y0 y1 : Int) : ∃ (n : Nat) (point : Nat → Int × Int),
    (n : Int) = max (x1 - x0) (lineHeight y0 y1) ∧ linePoints x0 y0 x1 y1 = (List.range (n + 1)).map point ∧
    point 0 = (x0, y0) ∧ point n = (x1, y1) ∧ ∀ k ≤ n, InBox x0 y0 x1 y1 (point k) := by
  have hdx : 0 ≤ x1 - x0 := Int.sub_nonneg.2 h
  have hdy := lineHeight_nonneg y0 y1
  have hlast := lineDirection_mul_lineHeight y0 y1
  rw [linePointsClosedForm x0 y0 x1 y1 h, closedFormPoints_eq_map]
  split
  case isTrue horizontal =>
    have hn : ((x1 - x0).toNat : Int) = x1 - x0 := Int.toNat_of_nonneg hdx
    refine ⟨_, _, by omega, rfl, by simp [horizontalPoint], ?_, fun k hk => ?_⟩
    · rw [horizontalPoint, hn, slopeProduct_last hdy horizontal, hlast, add_sub_cancel]
    · obtain ⟨lo, hi⟩ := slopeProduct_bounds (d := x1 - x0) (k := k) hdy (by omega) (by omega)
      exact ⟨by simp [horizontalPoint], by simp only [horizontalPoint]; omega, row_between lo (by omega)⟩
  case isFalse vertical =>
    have hn : ((lineHeight y0 y1).toNat : Int) = lineHeight y0 y1 := Int.toNat_of_nonneg hdy
    refine ⟨_, _, by omega, rfl, by simp [verticalPoint], ?_, fun k hk => ?_⟩
    · rw [verticalPoint, hn, slopeProduct_last hdx (by omega), hlast, add_sub_cancel]
    · obtain ⟨lo, hi⟩ := slopeProduct_bounds (d := lineHeight y0 y1) (k := k) hdx (by omega) (by omega)
      exact ⟨by simp only [verticalPoint]; omega, by simp only [verticalPoint]; omega, row_between (by omega) (by omega)⟩

/-- Settles O47: the four facts are those of `exists_linePoints_eq_map`, and two 16-bit coordinates differ by at most 65535. -/
theorem lineStaysBetweenItsEndpoints : Obligations.LineStaysBetweenItsEndpoints := by
  intro a b c d h
  obtain ⟨n, point, hn, hmap, hfirst, hlast, hbox⟩ := exists_linePoints_eq_map h b.toInt d.toInt
  rw [hmap]
  refine ⟨?_, ?_, ?_, ?_, ?_⟩
  · rw [List.length_map, List.length_range, ← lineHeight, ← hn]; rfl
  · have ha := sext16_range a; have hb := sext16_range b
    have hc := sext16_range c; have hd := sext16_range d
    unfold sext16 at ha hb hc hd
    rw [List.length_map, List.length_range]
    unfold lineHeight at hn; omega
  · simp [List.range_succ_eq_map, hfirst]
  · simp [List.range_succ, hlast]
  · simp only [List.forall_mem_map, List.mem_range, Nat.lt_succ_iff]
    exact hbox

/-! ## Plotting a list of points (rules R140, R147) -/

/-- The bits set after a list of points is plotted are those set before and those that hold one of its points. -/
theorem read_plotAll_getLsbD_iff (m : Memory) (points : List (Int × Int)) (o : Offset) (k : Nat) :
    ((plotAll m points).read o).getLsbD k = true ↔
      (m.read o).getLsbD k = true ∨ ∃ p ∈ points, PixelBit p.1 p.2 o k := by
  induction points generalizing m with
  | nil => simp
  | cons p ps ih => simp [ih, read_plot_getLsbD_iff, or_assoc]

/-- Rule R149, case 7: neither the order of the points nor how often each occurs can be observed. -/
theorem read_plotAll_congr (m : Memory) {ps qs : List (Int × Int)} (h : ∀ p, p ∈ ps ↔ p ∈ qs) (o : Offset) :
    (plotAll m ps).read o = (plotAll m qs).read o := by
  refine BitVec.eq_of_getLsbD_eq fun k _ => Bool.eq_iff_iff.2 ?_
  simp only [read_plotAll_getLsbD_iff, h]

/-- Settles O45: the VRAM put in place is that of `plotAll`, bit by bit `read_plotAll_getLsbD_iff`. -/
theorem drawlineSetsExactlyTheLine : Obligations.DrawlineSetsExactlyTheLine :=
  fun x0 y0 x1 y1 s => ⟨_, exec_drawline s x0 y0 x1 y1, onlyVramAndResponse_withVram_answer _ _ _,
    read_plotAll_getLsbD_iff s.vram _⟩

/-! ## The order of the endpoints (rules R141, R149) -/

/-- Rule R141: endpoints in different columns are put into one order, so that the order given does not matter. -/
theorem linePoints_comm_of_ne {x0 x1 : Int} (h : x0 ≠ x1) (y0 y1 : Int) :
    linePoints x0 y0 x1 y1 = linePoints x1 y1 x0 y0 := by
  obtain lt | gt := Int.lt_or_gt_of_ne h
  · rw [linePoints_of_le lt.le, linePoints_of_lt lt]
  · rw [linePoints_of_lt gt, linePoints_of_le gt.le]

theorem closedFormPoints_column (x y0 y1 : Int) : closedFormPoints x y0 x y1 =
    (List.range ((lineHeight y0 y1).toNat + 1)).map (verticalPoint x y0 0 (lineHeight y0 y1) (lineDirection y0 y1)) := by
  rw [closedFormPoints_eq_map, sub_self]
  split
  case isTrue single =>
    rw [(lineHeight_nonneg y0 y1).antisymm' single]
    simp [horizontalPoint, verticalPoint]
  case isFalse vertical => rfl

/-- Every row between the endpoints is a whole number of steps from the first. -/
theorem exists_step_of_between {y0 y1 y : Int} (lo : min y0 y1 ≤ y) (hi : y ≤ max y0 y1) :
    ∃ k ≤ (lineHeight y0 y1).toNat, y0 + lineDirection y0 y1 * k = y := by
  refine ⟨(y - y0).natAbs, ?_, ?_⟩
  · unfold lineHeight; omega
  · unfold lineDirection; split <;> omega

/-- A vertical line holds exactly the points of its column between its endpoints. -/
theorem mem_linePoints_column {x y0 y1 : Int} {p : Int × Int} :
    p ∈ linePoints x y0 x y1 ↔ InBox x y0 x y1 p := by
  constructor
  · obtain ⟨n, point, -, hmap, -, -, hbox⟩ := exists_linePoints_eq_map (le_refl x) y0 y1
    rw [hmap, List.mem_map]
    rintro ⟨k, hk, rfl⟩
    exact hbox k (Nat.lt_succ_iff.1 (List.mem_range.1 hk))
  · rintro ⟨left, right, lo, hi⟩
    obtain ⟨k, hk, hrow⟩ := exists_step_of_between lo hi
    rw [linePointsClosedForm x y0 x y1 (le_refl x), closedFormPoints_column, List.mem_map]
    refine ⟨k, List.mem_range.2 (Nat.lt_succ_iff.2 hk), Prod.ext ?_ hrow⟩
    simpa [verticalPoint] using left.antisymm right

theorem inBox_column_comm {x y0 y1 : Int} {p : Int × Int} : InBox x y0 x y1 p ↔ InBox x y1 x y0 p := by
  rw [InBox, InBox, min_comm, max_comm]

/-- Rule R141 and rule R149, case 7: both orders of the endpoints generate the same points, in one order or the other. -/
theorem mem_linePoints_comm (x0 y0 x1 y1 : Int) (p : Int × Int) :
    p ∈ linePoints x0 y0 x1 y1 ↔ p ∈ linePoints x1 y1 x0 y0 := by
  by_cases h : x0 = x1
  · subst h; rw [mem_linePoints_column, mem_linePoints_column, inBox_column_comm]
  · rw [linePoints_comm_of_ne h]

/-- Settles O46: different columns are reordered, and in one column both orders generate the same points. -/
theorem endpointOrderCannotBeObserved : Obligations.EndpointOrderCannotBeObserved :=
  ⟨fun _ b _ d h => linePoints_comm_of_ne h b d, fun a b c d s => ⟨_, _, exec_drawline s a b c d, exec_drawline s c d a b,
    read_plotAll_congr s.vram (mem_linePoints_comm _ _ _ _)⟩⟩

end Sys2Proof.Machine
end

section
/-! The math unit (rules R160 to R171): the model's integer operations in the words of the rules, and what each of the six operations
answers. -/

namespace Sys2Proof.Machine

open Sys2Proof.Claims

/-! ## Operands, sine look-ups and rotations in the words of the rules -/

/-- An operand of rule R64 that is read as its low 8 bits, signed. -/
theorem sext8_eq_sext8Spec (a : Slot) : sext8 a = sext8Spec a.toInt := sext8_eq a

/-- `sext_8` of an integer in the words of rule R10. -/
theorem sext8Int_eq_sext8Spec (v : Int) : sext8Int v = sext8Spec v := by
  unfold sext8Int lowByte sext8Spec
  rw [BitVec.toInt_ofInt, Int.bmod_def]; norm_num; split <;> split <;> omega

/-- The product of two signed bytes lies between the products of the ends of their range. -/
theorem sext8_mul_range (a b : Slot) : -16256 ≤ sext8 a * sext8 b ∧ sext8 a * sext8 b ≤ 16384 := by
  obtain ⟨ha, ha'⟩ := sext8_range a
  obtain ⟨hb, hb'⟩ := sext8_range b
  constructor <;> nlinarith

/-- Rule R162: SIN's look-up takes the angle mod 256. -/
theorem sinOf_zext8 (s : State) (angle : Slot) :
    s.sinOf (zext8 angle) = (s.sine[angle.toNat % 256]'(Nat.mod_lt _ (by decide))).toInt := by
  simp [State.sinOf, zext8]

/-- Rule R164: COS's look-up wraps past the end of the ROM. -/
theorem cosOf_zext8 (s : State) (angle : Slot) :
    s.cosOf (zext8 angle) = (s.sine[(angle.toNat + 64) % 256]'(Nat.mod_lt _ (by decide))).toInt := by
  simp [State.cosOf, State.sinOf, zext8]

/-- Rule R26: the table holds no -128. -/
theorem sinOf_range_of_sineTable {s : State} (h : s.sine = sineTable) (a : Byte) : -127 ≤ s.sinOf a ∧ s.sinOf a ≤ 127 := by
  rw [State.sinOf_congr (t := .reset) h]
  exact reset_sine_range ⟨a.toNat, a.isLt⟩

/-- Rule R162: a ROM entry fits its result slot. -/
@[simp] theorem signExtended_sinOf_toInt (s : State) (a : Byte) : (signExtended (s.sinOf a)).toInt = s.sinOf a := by
  obtain ⟨lo, hi⟩ := sinOf_range s a
  exact signExtended_toInt (by omega) (by omega)

@[simp] theorem signExtended_cosOf_toInt (s : State) (a : Byte) : (signExtended (s.cosOf a)).toInt = s.cosOf a :=
  signExtended_sinOf_toInt s (a + 64)

/-- Rule R165, both components. -/
theorem rot_eq_rotSpec (a b s c : Int) : rot a b s c = (rotSpec (a * c - b * s), rotSpec (a * s + b * c)) := by
  simp only [rot, sat8, asr_eq, rotSpec, mul_comm _ (2 : Int)]; rfl

/-- A saturated component fits its result slot. -/
@[simp] theorem signExtended_rotSpec_toInt (v : Int) : (signExtended (rotSpec v)).toInt = rotSpec v :=
  signExtended_toInt (by unfold rotSpec; omega) (by unfold rotSpec; omega)

/-! ## SMUL8, SIN, COS -/

/-- Settles O48: the product fits its slot by `sext8_mul_range`. -/
theorem smul8AnswersTheExactProduct : Obligations.Smul8AnswersTheExactProduct := by
  intro a b s
  obtain ⟨lo, hi⟩ := sext8_mul_range a b
  have fits : (signExtended (sext8 a * sext8 b)).toInt = sext8 a * sext8 b :=
    signExtended_toInt (by omega) (by omega)
  refine ⟨_, exec_smul8 s a b, ?_⟩
  rw [fits, ← sext8_eq_sext8Spec, ← sext8_eq_sext8Spec]
  exact ⟨rfl, lo, hi⟩

/-- Settles O49: both answer a ROM entry, which fits its slot and, in the table, is never -128. -/
theorem sinAndCosAnswerTheRomEntry : Obligations.SinAndCosAnswerTheRomEntry := by
  refine fun angle s => ⟨⟨_, exec_sin s angle, ?_⟩, ⟨_, exec_cos s angle, ?_⟩⟩
  · rw [signExtended_sinOf_toInt, ← sinOf_zext8]
    exact ⟨rfl, fun h => sinOf_range_of_sineTable h _⟩
  · rw [signExtended_cosOf_toInt, ← cosOf_zext8]
    exact ⟨rfl, fun h => sinOf_range_of_sineTable h _⟩

/-! ## ROTPAIR, ROTXYZ -/

/-- Settles O52: `rot` is the pair of components of rule R165, and each fits its slot. -/
theorem rotpairAnswers : Obligations.RotpairAnswers := by
  refine fun a b sinVal cosVal s => ⟨_, _, exec_rotpair s a b sinVal cosVal, ?_⟩
  simp only [rot_eq_rotSpec, signExtended_rotSpec_toInt, sext8_eq_sext8Spec, and_self]

/-- Settles O53: each of the three rotations is a pair of components of rule R165, and their order is that of `rotXYZ`. -/
theorem rotxyzAnswers : Obligations.RotxyzAnswers := by
  refine fun x y z angleX angleY angleZ s => ⟨_, _, _, exec_rotxyz s x y z angleX angleY angleZ, ?_⟩
  simp only [rotXYZ, rot_eq_rotSpec, signExtended_rotSpec_toInt, sext8_eq_sext8Spec, sinOf_zext8, cosOf_zext8, and_self]

/-- Rule R168: a component times the table's cosine of 0, rotated, is `g` of it. -/
theorem rotSpec_mul_127 {v : Int} (hv : -128 ≤ v ∧ v ≤ 127) : rotSpec (v * 127) = zeroPass v := by
  unfold rotSpec zeroPass; split_ifs <;> omega

theorem zeroPass_range {v : Int} (hv : -128 ≤ v ∧ v ≤ 127) : -128 ≤ zeroPass v ∧ zeroPass v ≤ 127 := by
  unfold zeroPass; split_ifs <;> omega

/-- Rule R168: one rotation by the sine 0 and the cosine 127 of the table's angle 0. -/
theorem rot_by_zero {a b : Int} (ha : -128 ≤ a ∧ a ≤ 127) (hb : -128 ≤ b ∧ b ≤ 127) :
    rot a b 0 127 = (zeroPass a, zeroPass b) := by
  simp [rot_eq_rotSpec, rotSpec_mul_127, ha, hb]

/-- Rule R168: each component takes part in two of the three rotations. -/
theorem rotXYZ_by_zero {s : State} (h : s.sine = sineTable) {x y z : Int} (hx : -128 ≤ x ∧ x ≤ 127)
    (hy : -128 ≤ y ∧ y ≤ 127) (hz : -128 ≤ z ∧ z ≤ 127) :
    rotXYZ s x y z 0 0 0 = (zeroPass (zeroPass x), zeroPass (zeroPass y), zeroPass (zeroPass z)) := by
  have sin_zero : s.sinOf 0 = 0 := (State.sinOf_congr (t := .reset) h 0).trans (by decide +kernel)
  have cos_zero : s.cosOf 0 = 127 := (State.cosOf_congr (t := .reset) h 0).trans (by decide +kernel)
  simp only [rotXYZ, sin_zero, cos_zero, rot_by_zero hx hy, rot_by_zero (zeroPass_range hx) hz,
    rot_by_zero (zeroPass_range hy) (zeroPass_range hz)]

/-- Settles O54: `rotXYZ_by_zero`, whose results are bytes and fit their slots. -/
theorem rotationByZeroLosesPrecision : Obligations.RotationByZeroLosesPrecision := by
  intro x y z s h
  have fits (v : Slot) : (signExtended (zeroPass (zeroPass (sext8 v)))).toInt = zeroPass (zeroPass (sext8 v)) := by
    obtain ⟨lo, hi⟩ := zeroPass_range (zeroPass_range (sext8_range v))
    exact signExtended_toInt (by omega) (by omega)
  have angle_zero : zext8 0 = 0 := rfl
  refine ⟨_, _, _, exec_rotxyz s x y z 0 0 0, ?_⟩
  simp only [angle_zero, rotXYZ_by_zero h (sext8_range x) (sext8_range y) (sext8_range z), fits, ← sext8_eq_sext8Spec,
    and_self]

/-! ## PROJECT -/

/-- Rule R169, with the exact quotient. -/
theorem projectScale_eq {den : Int} (h : 0 < den) (vd : Int) : projectScale vd den = min 255 (vd * 128 / den) := by
  rw [projectScale, fdiv_eq h.le]

/-- Rules R169, R170: a coordinate as its slot reads it, wrapped to 0..255. -/
theorem zeroExtended_projectCoordinate_toInt {den : Int} (h : 0 < den) (centre vd : Int) (v : Slot) :
    (zeroExtended (projectCoordinate centre (sext8 v) (projectScale vd den)).toNat).toInt =
      (centre + (sext8Spec v.toInt * projectMultiplier vd den * 2) / 256) % 256 := by
  have lowByte_toNat (w : Int) : ((lowByte w).toNat : Int) = w % 256 := by simp [lowByte]; omega
  rw [zeroExtended_toInt ((projectCoordinate _ _ _).isLt.trans (by decide)), projectCoordinate, lowByte_toNat, asr_eq,
    sext8Int_eq_sext8Spec, projectScale_eq h, sext8_eq_sext8Spec]
  rfl

/-- Settles O55: by the sign of the denominator; a coordinate is `zeroExtended_projectCoordinate_toInt`. -/
theorem projectAnswers : Obligations.ProjectAnswers :=
  fun x y _ _ s => ⟨exec_project_fails s, fun h => ⟨_, _, exec_project s h,
    zeroExtended_projectCoordinate_toInt h 128 _ x, zeroExtended_projectCoordinate_toInt h 96 _ y⟩⟩

/-- A scale below 128 multiplies as itself (rule R170). -/
theorem sext8Int_of_lt {v : Int} (lo : 0 ≤ v) (hi : v ≤ 127) : sext8Int v = v := by
  rw [sext8Int_eq_sext8Spec]; unfold sext8Spec; split_ifs <;> omega

/-- A scale from 128 on multiplies as a negative number (rule R170). -/
theorem sext8Int_of_ge {v : Int} (lo : 128 ≤ v) (hi : v ≤ 255) : sext8Int v = v - 256 := by
  rw [sext8Int_eq_sext8Spec]; unfold sext8Spec; split_ifs <;> omega

/-- Settles O56: the denominator is above the viewer distance exactly when `z` is positive, and then the quotient is below 128. -/
theorem projectMultiplierSign : Obligations.ProjectMultiplierSign := by
  intro z vd hvd hden
  dsimp only
  rw [projectScale_eq hden]
  constructor
  · intro hz
    have nonneg : 0 ≤ vd.toInt * 128 / (z.toInt + vd.toInt) := Int.ediv_nonneg (by omega) hden.le
    have lt : vd.toInt * 128 / (z.toInt + vd.toInt) < 128 := Int.ediv_lt_of_lt_mul hden (by omega)
    exact ⟨by omega, by omega, sext8Int_of_lt (by omega) (by omega)⟩
  · intro hz
    have ge : 128 ≤ vd.toInt * 128 / (z.toInt + vd.toInt) := (Int.le_ediv_iff_mul_le hden).2 (by omega)
    have negative := sext8Int_of_ge (v := min 255 (vd.toInt * 128 / (z.toInt + vd.toInt))) (by omega) (by omega)
    exact ⟨by omega, by omega, negative, by omega⟩

/-! ## The math unit as a function of its operands and the sine ROM -/

/-- Settles O57: the operand slots alone settle SMUL8, ROTPAIR and PROJECT; the look-ups of the others agree on equal ROMs. -/
theorem mathUnitIsAPureFunction : Obligations.MathUnitIsAPureFunction := by
  intro i hi s s' hs
  cases i with
  | smul8 a b => exact ⟨_, exec_smul8 s a b, exec_smul8 s' a b⟩
  | sin angle => exact ⟨_, exec_sin s angle, by rw [exec_sin, State.sinOf_congr hs]⟩
  | cos angle => exact ⟨_, exec_cos s angle, by rw [exec_cos, State.cosOf_congr hs]⟩
  | rotpair a b sv cv => exact ⟨_, exec_rotpair s a b sv cv, exec_rotpair s' a b sv cv⟩
  | rotxyz x y z ax ay az => exact ⟨_, exec_rotxyz s x y z ax ay az, by rw [exec_rotxyz, rotXYZ_congr hs]⟩
  | project x y z vd =>
    by_cases hd : sext16 z + sext16 vd ≤ 0
    · exact ⟨_, exec_project_fails s hd, exec_project_fails s' hd⟩
    · exact ⟨_, exec_project s (not_le.1 hd), exec_project s' (not_le.1 hd)⟩
  | _ => exact False.elim hi

end Sys2Proof.Machine
end

section
/-! The limits of the contract (rule R192): an operation completes inside the domain of its rule and is refused everywhere else. -/

namespace Sys2Proof.Machine

/-- An operation outside the contract of its rule is refused. Only SCRADDR, ATTRADDR, SETATTR and GETATTR have an outside. -/
theorem exists_exec_refused {i : Instr} (h : i.wellFormed = false) (s : State) : ∃ r, exec i s = .refused r := by
  cases i with
  | scraddr x y => exact ⟨_, exec_scraddr_off s (onScreen_eq_false.1 h)⟩
  | attraddr col row => exact ⟨_, exec_attraddr_out s (inGrid_eq_false.1 h)⟩
  | setattr col row value => exact ⟨_, exec_setattr_out s value (inGrid_eq_false.1 h)⟩
  | getattr col row => exact ⟨_, exec_getattr_out s (inGrid_eq_false.1 h)⟩
  | _ => cases h

/-- An operation completes exactly inside the contract of its rule. -/
theorem exists_exec_next_iff {i : Instr} {s : State} : (∃ t, exec i s = .next t) ↔ i.wellFormed = true := by
  refine ⟨?_, fun inside => exists_exec_next inside s⟩
  rintro ⟨t, completes⟩
  by_contra outside
  obtain ⟨r, refused⟩ := exists_exec_refused (eq_false_of_ne_true outside) s
  cases completes.symm.trans refused

/-- Settles O10: `exists_exec_next_iff`, each refusal under its own name, and the step's refusal of a word that selects no operation. -/
theorem refusedExactlyOutsideTheContract : Obligations.RefusedExactlyOutsideTheContract :=
  ⟨fun _ _ => exists_exec_next_iff,
   fun _ _ s hoff => exec_scraddr_off s (onScreen_eq_false.1 hoff),
   fun _ _ s hout => exec_attraddr_out s (inGrid_eq_false.1 hout),
   fun _ _ value s hout => exec_setattr_out s value (inGrid_eq_false.1 hout),
   fun _ _ s hout => exec_getattr_out s (inGrid_eq_false.1 hout),
   fun _ _ _ _ hs hw => ⟨_, step_reserved hs hw⟩⟩

end Sys2Proof.Machine
end
